-- ==== Sys2Proof/Word.lean ====
section
/-! DEFINITION. Words of LSEQ: the widths the spec's encoding uses (spec/30_encoding.md R46, spec/20_memory.md R35). -/

namespace Sys2Proof

/-- One instruction word: 32 bits, bit 0 the least significant (R8, R46). -/
abbrev Word := BitVec 32

/-- The ADDR field of a word: an unsigned 16-bit data address (R50). -/
abbrev Addr := BitVec 16

/-- One byte: the SEL field of a word (R49), and the unit of a byte-wide channel to CONSTRUCT (R35). -/
abbrev Byte := BitVec 8

end Sys2Proof
end

