-- ==== Sys2Proof/Syntax.lean ====
section
/-! DEFINITION. The syntax of LSEQ: the ten instructions of spec/opcode_table.json, as the structured value
`opcode, optional argument` that spec/30_encoding.md encodes. -/

namespace Sys2Proof

/-- The argument a word carries when ARGP = 1 (R48): the bank letter's character code, which no rule reads (R49), and
the data address (R50). -/
structure Argument where
  sel : Byte
  addr : Addr
deriving DecidableEq, Repr

/-- The instructions of LSEQ (R47), each with the argument its word carries, or none (ARGP, R48).
The argument is optional on all ten: a word whose ARGP is wrong for its opcode is accepted, and faults when executed. -/
inductive Instr where
  | endScan (arg : Option Argument)
  | ld (arg : Option Argument)
  | ldnot (arg : Option Argument)
  | out (arg : Option Argument)
  | or (arg : Option Argument)
  | ornot (arg : Option Argument)
  | and (arg : Option Argument)
  | andnot (arg : Option Argument)
  | orstack (arg : Option Argument)
  | andstack (arg : Option Argument)
deriving DecidableEq, Repr

/-- The closed catalogue of mnemonics (R1, R47). -/
inductive Mnemonic where
  | endScan
  | ld
  | ldnot
  | out
  | or
  | ornot
  | and
  | andnot
  | orstack
  | andstack
deriving DecidableEq, Repr

/-- The rejection codes of CONSTRUCT (R101). -/
inductive RejectCode where
  /-- REJ_EMPTY: the program has no words. -/
  | empty
  /-- REJ_TOO_LONG: the program has more than PMAX words. -/
  | tooLong
  /-- REJ_OPCODE: OPC is 10 to 15 (R52). -/
  | opcode
  /-- REJ_RESERVED: RSV is not zero (R53). -/
  | reserved
  /-- REJ_NONCANONICAL: ARGP = 0 with SEL or ADDR not zero (R51). -/
  | nonCanonical
deriving DecidableEq, Repr

/-- One line of program text after the parser, which is outside the block (R5, R57): a mnemonic and, optionally, a
bank letter and the value of the hexadecimal address. -/
structure Line where
  mnemonic : Mnemonic
  arg : Option (Char × Nat)
deriving DecidableEq, Repr

end Sys2Proof
end

