-- ==== Sys2Proof/Config.lean ====
section
/-! DEFINITION. The instance parameters of LSEQ (spec/00_scope.md R6, R7): fixed for the lifetime of a block instance.
They are plain data, carried by `State.cfg`, so that every claim can be made for every instance and a run can still be
computed (log entry 1). LSEQ leaves no result of an instruction open, so there is no free value here. -/

namespace Sys2Proof

/-- BOUNDS_POLICY (R6, R29): whether address N itself is legal. -/
inductive BoundsPolicy where
  /-- Legal addresses are 0..N (the default). -/
  | inclusive
  /-- Legal addresses are 0..N-1. -/
  | strict
deriving DecidableEq, Repr

/-- TOGGLE_POLICY (R6, R66): when the read/write selector flips. -/
inductive TogglePolicy where
  /-- After every step that completes without fault (the normative default). -/
  | perInstruction
  /-- After a step that completes without fault and leaves PC = 0 (the optional variant). -/
  | perScan
deriving DecidableEq, Repr

/-- The instance parameters (R6). -/
structure Config where
  /-- N: the declared bank size. -/
  n : Nat
  bounds : BoundsPolicy
  toggle : TogglePolicy
  /-- SMAX: the evaluation-stack capacity in entries. -/
  smax : Nat
  /-- PMAX: the largest program length accepted. -/
  pmax : Nat
deriving DecidableEq, Repr

/-- The normative configuration (R7). SMAX and PMAX are OPEN parameters: 8 and 64 are the values that
spec/95_test_vectors.md uses "where a value is needed" (DESIGN CHOICE, log entry 2). -/
def Config.standard : Config :=
  { n := 256, bounds := .inclusive, toggle := .perInstruction, smax := 8, pmax := 64 }

end Sys2Proof
end

