-- ==== Sys2Proof/WellFormed.lean ====
section
/-! DEFINITION. Well-formedness checks on syntax and configuration. Every term of `Instr` is an accepted word
(spec/30_encoding.md R51, R54); what can still be wrong with one is the presence of its argument (R48). -/

namespace Sys2Proof

/-- The argument kind of R47: whether the opcode expects a memory argument (ARGP = 1). -/
def Instr.expectsArg : Instr → Bool
  | .endScan _ => false
  | .ld _ => true
  | .ldnot _ => true
  | .out _ => true
  | .or _ => true
  | .ornot _ => true
  | .and _ => true
  | .andnot _ => true
  | .orstack _ => false
  | .andstack _ => false

/-- The argument the instruction carries: `some` is ARGP = 1, `none` is ARGP = 0 (R48). -/
def Instr.arg : Instr → Option Argument
  | .endScan a => a
  | .ld a => a
  | .ldnot a => a
  | .out a => a
  | .or a => a
  | .ornot a => a
  | .and a => a
  | .andnot a => a
  | .orstack a => a
  | .andstack a => a

/-- The fully correct form of opcode_table.json (canonical_match, canonical_mask): the argument is present exactly
where the opcode expects one. An instruction that fails this check still has an encoding and a meaning: it faults
ARG_SHAPE when executed (R64). -/
def Instr.wf (i : Instr) : Bool := i.arg.isSome == i.expectsArg

/-- The ranges of R6. That SMAX and PMAX fit the 32-bit registers CFG_SMAX and CFG_PMAX is read from R25
(DEDUCED, log entry 5). -/
def Config.wf (c : Config) : Bool :=
  decide (1 ≤ c.n) && decide (c.n ≤ 0xFFFE) && decide (2 ≤ c.smax) && decide (c.smax < 2 ^ 32)
    && decide (1 ≤ c.pmax) && decide (c.pmax < 2 ^ 32)

/-- The line form of R57: the bank letter is one of A to Z. -/
def Line.wf (l : Line) : Bool :=
  match l.arg with
  | none => true
  | some (letter, _) => decide (65 ≤ letter.toNat) && decide (letter.toNat ≤ 90)

end Sys2Proof
end

