-- ==== Sys2Proof/Decode.lean ====
section
/-! DEFINITION. The encoding of spec/30_encoding.md: field extraction (R46), the decode function CONSTRUCT applies to
every word and STEP to the fetched one (R56), the encoder written from the same table, the text mapping (R57) and the
byte serialisation (spec/20_memory.md R35). -/

namespace Sys2Proof

/-- `OPC`, bits [3:0] (R46). -/
def opcField (w : Word) : BitVec 4 := w.extractLsb' 0 4

/-- `RSV`, bits [6:4] (R46). -/
def rsvField (w : Word) : BitVec 3 := w.extractLsb' 4 3

/-- `ARGP`, bit [7] (R46). -/
def argpField (w : Word) : BitVec 1 := w.extractLsb' 7 1

/-- `SEL`, bits [15:8] (R46). -/
def selField (w : Word) : Byte := w.extractLsb' 8 8

/-- `ADDR`, bits [31:16] (R46). -/
def addrField (w : Word) : Addr := w.extractLsb' 16 16

/-- The opcode map of R47, from the OPC field; 10 to 15 are reserved (R52). -/
def mnemonicOf (opc : BitVec 4) : Option Mnemonic :=
  match opc.toNat with
  | 0 => some .endScan
  | 1 => some .ld
  | 2 => some .ldnot
  | 3 => some .out
  | 4 => some .or
  | 5 => some .ornot
  | 6 => some .and
  | 7 => some .andnot
  | 8 => some .orstack
  | 9 => some .andstack
  | _ => none

/-- The instruction with the given mnemonic and argument. -/
def Mnemonic.instr (m : Mnemonic) (arg : Option Argument) : Instr :=
  match m with
  | .endScan => .endScan arg
  | .ld => .ld arg
  | .ldnot => .ldnot arg
  | .out => .out arg
  | .or => .or arg
  | .ornot => .ornot arg
  | .and => .and arg
  | .andnot => .andnot arg
  | .orstack => .orstack arg
  | .andstack => .andstack arg

/-- `Decode` of R56: total on every 32-bit word, the first failing check in its order giving the code. -/
def decodeWord (w : Word) : Except RejectCode Instr :=
  match mnemonicOf (opcField w) with
  | none => .error .opcode
  | some m =>
    if rsvField w ≠ 0 then .error .reserved
    else if argpField w = 0 then
      if selField w ≠ 0 ∨ addrField w ≠ 0 then .error .nonCanonical
      else .ok (m.instr none)
    else .ok (m.instr (some { sel := selField w, addr := addrField w }))

/-- The opcode numbers of R47. -/
def Mnemonic.opc : Mnemonic → BitVec 4
  | .endScan => 0
  | .ld => 1
  | .ldnot => 2
  | .out => 3
  | .or => 4
  | .ornot => 5
  | .and => 6
  | .andnot => 7
  | .orstack => 8
  | .andstack => 9

/-- The mnemonic of an instruction. -/
def Instr.mnemonic : Instr → Mnemonic
  | .endScan _ => .endScan
  | .ld _ => .ld
  | .ldnot _ => .ldnot
  | .out _ => .out
  | .or _ => .or
  | .ornot _ => .ornot
  | .and _ => .and
  | .andnot _ => .andnot
  | .orstack _ => .orstack
  | .andstack _ => .andstack

/-- The word with the given opcode number and argument: the layout of R46, high part first. -/
def packWord (opc : BitVec 4) (arg : Option Argument) : Word :=
  match arg with
  | none => (0 : BitVec 16) ++ (0 : BitVec 8) ++ (0 : BitVec 1) ++ (0 : BitVec 3) ++ opc
  | some a => a.addr ++ a.sel ++ (1 : BitVec 1) ++ (0 : BitVec 3) ++ opc

/-- The one word of an instruction (R46, R47, R51). -/
def encode (i : Instr) : Word := packWord i.mnemonic.opc i.arg

/-- The word whose bits are `w`, as spec/opcode_table.json numbers them: an instruction is one 32-bit word, and bits at
or above `nbits` are 0. -/
def tableWord (nbits w : Nat) : Word := BitVec.ofNat 32 (w % 2 ^ nbits)

/-- The instruction the decoder reads from an instruction of the opcode table whose bits are `w`. -/
def decodeTableWord (nbits w : Nat) : Option Instr :=
  match decodeWord (tableWord nbits w) with
  | .ok i => some i
  | .error _ => none

/-- `Encode` of R57, from a line of text to its word: a text address above 0xFFFF is encoded as 0xFFFF, and the bank
letter as its 8-bit character code (PRESUMED, the spec's own general-knowledge item G1, log entry 14). -/
def assembleLine (l : Line) : Word :=
  match l.arg with
  | none => packWord l.mnemonic.opc none
  | some (letter, hex) =>
    packWord l.mnemonic.opc
      (some { sel := BitVec.ofNat 8 letter.toNat, addr := BitVec.ofNat 16 (min hex 0xFFFF) })

/-- Line k of the text (1-indexed) becomes PROG[k-1] (R57). -/
def assemble (lines : List Line) : List Word := lines.map assembleLine

/-- The line an instruction prints back to (R49): the character whose code SEL holds, and the address. For a SEL byte
that is no letter A to Z the line is none of R57's (`Line.wf`); printing it so is the model's reading (PRESUMED, log
entry 14). -/
def printLine (i : Instr) : Line :=
  { mnemonic := i.mnemonic, arg := i.arg.map fun a => (Char.ofNat a.sel.toNat, a.addr.toNat) }

/-- A word on a byte-wide channel: least significant byte first (R35). -/
def bytesOfWord (w : Word) : List Byte :=
  [w.extractLsb' 0 8, w.extractLsb' 8 8, w.extractLsb' 16 8, w.extractLsb' 24 8]

/-- The word that four bytes of a byte-wide channel carry (R35). -/
def wordOfBytes (b0 b1 b2 b3 : Byte) : Word := b3 ++ b2 ++ b1 ++ b0

/-- The words that a byte-wide channel carries to CONSTRUCT (R35); a number of bytes that is no multiple of four carries
no program. -/
def wordsOfBytes : List Byte → Option (List Word)
  | [] => some []
  | b0 :: b1 :: b2 :: b3 :: rest => (wordsOfBytes rest).map (wordOfBytes b0 b1 b2 b3 :: ·)
  | _ => none

end Sys2Proof
end

