-- ==== Sys2Proof/Machine/State.lean ====
section
/-! DEFINITION. The architectural state of LSEQ, spec/10_state.md R13 ("exactly the state below and nothing else"), as
plain data, the state at power-on, and the reasons a step can stop. -/

namespace Sys2Proof.Machine

/-- One physical memory bank (R18): the cells that hold 1 as (address, bit) pairs, addresses strictly rising, no entry
equal to what an unlisted address reads as. The cells are single bits (R27, R35), so an entry is a bit, not a byte
(log entry 7). -/
abbrev Bank := List (Nat × Bool)

/-- `STATE` (R23). -/
inductive Engine where
  /-- No program has been constructed. -/
  | unloaded
  /-- A program is loaded and STEP and SCAN execute. -/
  | ready
  /-- A fault has occurred; STEP and SCAN execute nothing. -/
  | halted
deriving DecidableEq, Repr

/-- The fault codes held in `FCODE` (R84). An instruction that raises one TAKES the fault: the step answers a next state
with the block halted and the fault recorded (R86). -/
inductive FaultCode where
  /-- No fault; never raised. -/
  | none
  /-- ARGP differs from the opcode's argument kind. -/
  | argShape
  /-- The address is outside the bank. -/
  | addrBounds
  /-- The stack depth is not what the instruction needs. -/
  | stackDepth
  /-- LD or LDNOT on a full stack. -/
  | stackOverflow
deriving DecidableEq, Repr

/-- The architectural state (R13), with the instance parameters that the CFG registers show (R25).
`SP` is the length of `stk` and `L` the length of `prog` (log entry 6). -/
structure State where
  /-- The instance parameters (R6): no instruction and no command changes them. -/
  cfg : Config
  /-- `STATE` (R23). -/
  engine : Engine
  /-- `PROG[0..L-1]` (R14). -/
  prog : List Word
  /-- `PC`: the index of the next instruction to fetch (R16). -/
  pc : Nat
  /-- `MODE` (R17): false reads bank A and writes bank B, true reads bank B and writes bank A. -/
  mode : Bool
  /-- `BANK_A` (R18). -/
  bankA : Bank
  /-- `BANK_B` (R18). -/
  bankB : Bank
  /-- The stack contents STK[0..SP-1] (R19), the top STK[SP-1] first. -/
  stk : List Bool
  /-- `FCODE` (R24). -/
  fcode : FaultCode
  /-- `FINDEX` (R24). -/
  findex : Nat
  /-- `FWORD` (R24). -/
  fword : Word
  /-- `PRESETS`, first image: bank A's (R13, R102). -/
  presetA : Bank
  /-- `PRESETS`, second image: bank B's (R13, R102). -/
  presetB : Bank
deriving DecidableEq, Repr

/-- The reasons a step can stop for good. All three are unreachable: no state that CONSTRUCT, RESET and steps lead to
raises one (spec/93_implementation_defined.md I6, I7, treatment `stuck`; log entry 10). Each is safe: the model stops
where the spec defines nothing. The faults of LSEQ itself are not here: they are taken, as `FaultCode`. -/
inductive Fault where
  /-- Raised by the fetch of a step in READY when no program word stands at PC (excluded by R16). Safe. -/
  | fetchOutOfRange
  /-- Raised by the fetch of a step in READY when the word at PC is not one CONSTRUCT accepts (excluded by R61:
  "CONSTRUCT accepted w"). Safe. -/
  | wordNotAccepted
  /-- Raised by SCAN when L steps have run and PC is still not 0 (excluded by R69). Safe. -/
  | scanOverrun
deriving DecidableEq, Repr

/-- The reasons the model gives an instruction no meaning. -/
inductive Refusal where
  /-- Raised by an arm of `exec` whose instruction has no meaning yet; no arm raises it in this model. Safe. -/
  | notModelled (mnemonic : String)
deriving DecidableEq, Repr

/-- An instance at power-on (R99): UNLOADED, with no program. R99 gives the other elements no value; the model names
the values CONSTRUCT sets (DESIGN CHOICE, log entry 3), which no command can observe in UNLOADED. -/
def State.powerOn (cfg : Config) : State :=
  { cfg := cfg, engine := .unloaded, prog := [], pc := 0, mode := false, bankA := [], bankB := [], stk := [],
    fcode := .none, findex := 0, fword := 0, presetA := [], presetB := [] }

/-- The machine right after power-on, in the normative configuration (R7, R99; log entries 2, 3 and 4). -/
def State.reset : State := State.powerOn Config.standard

end Sys2Proof.Machine
end

