-- ==== Sys2Proof/Machine/Flags.lean ====
section
/-! DEFINITION. `MODE`, the only flag of LSEQ (spec/10_state.md R17, R22), and its update at the end of a step
(spec/40_sequencer.md R66). No instruction writes a flag. -/

namespace Sys2Proof.Machine

/-- The value `ToggleMode` gives MODE (R66): the PC it reads is the one the instruction left. -/
def State.nextMode (s : State) : Bool :=
  match s.cfg.toggle with
  | .perInstruction => !s.mode
  | .perScan => if s.pc = 0 then !s.mode else s.mode

/-- `ToggleMode` (R66). -/
def State.toggleMode (s : State) : State := { s with mode := s.nextMode }

end Sys2Proof.Machine
end

