-- ==== Sys2Proof/Machine/Ops.lean ====
section
/-! DEFINITION. The named operations over memory, the stack and the program counter, fault entry and the ways out of
it, and the step body that every instruction runs inside (spec/10_state.md, 20_memory.md, 40_sequencer.md,
60_exceptions.md). -/

namespace Sys2Proof.Machine

/-! ## Banks -/

/-- What an unlisted address of a bank reads as: 0, the default preset (R6, R100). -/
def Bank.unlisted : Bool := false

/-- The bit at an address of a bank. -/
def Bank.read : Bank → Nat → Bool
  | [], _ => Bank.unlisted
  | (k, v) :: rest, a => if k = a then v else Bank.read rest a

/-- The bank with one cell changed, in canonical form: writing the bit an unlisted address reads as removes the
entry. -/
def Bank.write : Bank → Nat → Bool → Bank
  | [], a, v => if v = Bank.unlisted then [] else [(a, v)]
  | (k, w) :: rest, a, v =>
    if k < a then (k, w) :: Bank.write rest a v
    else if k = a then (if v = Bank.unlisted then rest else (a, v) :: rest)
    else if v = Bank.unlisted then (k, w) :: rest
    else (a, v) :: (k, w) :: rest

/-- The canonical form: addresses strictly rising, no entry equal to what an unlisted address reads as. -/
def Bank.wf : Bank → Bool
  | [] => true
  | (k, v) :: rest => (v != Bank.unlisted) && rest.all (fun c => decide (k < c.1)) && Bank.wf rest

/-- Every listed cell is one of the first `c` cells. -/
def Bank.within (b : Bank) (c : Nat) : Bool := b.all (fun e => decide (e.1 < c))

/-- The bank of `c` cells that a preset image describes (R100), in canonical form. Entries outside the bank are no part
of a `c`-bit image and are dropped; unlisted cells are 0, the default (DESIGN CHOICE, log entry 12). -/
def Bank.ofPreset (c : Nat) : Bank → Bank
  | [] => []
  | (k, v) :: rest => if k < c then Bank.write (Bank.ofPreset c rest) k v else Bank.ofPreset c rest

/-- All four bit images of the state are in canonical form. -/
def Memory.wf (s : State) : Bool :=
  Bank.wf s.bankA && Bank.wf s.bankB && Bank.wf s.presetA && Bank.wf s.presetB

/-- `C`, the number of cells of a bank (R28). -/
def cellCount (c : Config) : Nat :=
  match c.bounds with
  | .inclusive => c.n + 1
  | .strict => c.n

/-- `MemRead(a, 1)` (R30): the cell of the bank MODE selects for reads. -/
def State.memRead (s : State) (a : Nat) : Bool :=
  if s.mode then Bank.read s.bankB a else Bank.read s.bankA a

/-- `MemWrite(a, 1, v)` (R31): the cell of the bank MODE selects for writes. -/
def State.memWrite (s : State) (a : Nat) (v : Bool) : State :=
  { s with
    bankA := if s.mode then Bank.write s.bankA a v else s.bankA
    bankB := if s.mode then s.bankB else Bank.write s.bankB a v }

/-! ## The evaluation stack -/

/-- `SP`, the stack depth (R19). -/
def State.sp (s : State) : Nat := s.stk.length

/-- `STK[i]` (R19): an entry at or above SP holds no value. -/
def State.stkEntry (s : State) (i : Nat) : Option Bool := s.stk.reverse[i]?

/-- `Push(v)` (R20). -/
def State.push (s : State) (v : Bool) : State := { s with stk := v :: s.stk }

/-- `Pop()` (R20): the value and the state after it. On an empty stack there is none, and no instruction calls it there
(R85). -/
def State.pop (s : State) : Option (Bool × State) :=
  match s.stk with
  | [] => none
  | v :: rest => some (v, { s with stk := rest })

/-! ## Fetch and program counter -/

/-- `L`, the number of instructions in PROG (R15). -/
def State.progLen (s : State) : Nat := s.prog.length

/-- The fetch of a step (R62): `PROG[PC]`. -/
def State.fetch (s : State) : Option Word := s.prog[s.pc]?

/-- The advance of a step (R62): PC wraps modulo L (R63). -/
def State.advance (s : State) : State := { s with pc := (s.pc + 1) % s.progLen }

/-- `pc <- target` (R10). -/
def State.setPc (s : State) (target : Nat) : State := { s with pc := target }

/-! ## Taking a fault, and leaving it -/

/-- Fault entry (R86): the block halts and the fault record is written; everything else is as the fetch left it. -/
def State.takeFault (s : State) (code : FaultCode) (ipc : Nat) (w : Word) : State :=
  { s with engine := .halted, fcode := code, findex := ipc, fword := w }

/-- What a successful CONSTRUCT sets (R100). -/
def State.initialise (s : State) (words : List Word) (pa pb : Bank) : State :=
  { s with
    prog := words, pc := 0, mode := false, stk := [], bankA := pa, bankB := pb, fcode := .none, findex := 0, fword := 0,
    presetA := pa, presetB := pb, engine := .ready }

/-- What RESET sets (R102): the program and the presets of the last successful CONSTRUCT. Beside CONSTRUCT it is the only
way out of a fault (R89). -/
def State.restart (s : State) : State := s.initialise s.prog s.presetA s.presetB

/-! ## The step body -/

/-- `StepBody` (R61) around an instruction's `Execute` body: fetch, advance, execute, flip MODE; or, where the body
raises a fault, the fault entry on the advanced state (R86). -/
def State.stepBody (s : State) (execute : State → Except FaultCode State) : Host.Outcome State Fault Refusal :=
  match s.fetch with
  | none => .fault .fetchOutOfRange
  | some w =>
    match execute s.advance with
    | .ok t => .next t.toggleMode
    | .error code => .next (s.advance.takeFault code s.pc w)

/-- The instruction a step in READY executes (R61): the fetched word, decoded (R56). -/
def State.fetchInstr (s : State) : Except Fault Instr :=
  match s.fetch with
  | none => .error .fetchOutOfRange
  | some w =>
    match decodeWord w with
    | .ok i => .ok i
    | .error _ => .error .wordNotAccepted

end Sys2Proof.Machine
end

