-- ==== Sys2Proof/Machine/Operands.lean ====
section
/-! DEFINITION. The operand forms of LSEQ: the memory argument (absolute direct, spec/30_encoding.md R50), no argument,
and the stack, with the checks that stand before every effect (spec/40_sequencer.md R64, R65). -/

namespace Sys2Proof.Machine

/-- The bounds predicate on a data address (R29). -/
def inBounds (c : Config) (a : Nat) : Bool :=
  match c.bounds with
  | .inclusive => decide (a ≤ c.n)
  | .strict => decide (a < c.n)

/-- A body's next state, or the fault it raises. -/
abbrev Body := Except FaultCode State

/-- The operand of a mem-operand instruction: ARG_SHAPE if there is none (R64), then ADDR_BOUNDS if its address is out
of bounds (R65), then the rest of the body at the effective address `zext(ADDR)` (R50). The bank letter is not read
(R32, R49). -/
def withCell (arg : Option Argument) (s : State) (rest : Nat → Body) : Body :=
  match arg with
  | none => .error .argShape
  | some a => if inBounds s.cfg a.addr.toNat then rest a.addr.toNat else .error .addrBounds

/-- A no-operand instruction: ARG_SHAPE if there is an argument (R64), then the rest of the body. -/
def withNoArg (arg : Option Argument) (rest : Body) : Body :=
  match arg with
  | none => rest
  | some _ => .error .argShape

/-- The arity check (R65): STACK_DEPTH unless the depth is as the instruction needs it. -/
def withDepth (depthOk : Bool) (rest : Body) : Body :=
  if depthOk then rest else .error .stackDepth

/-- The capacity check of LD and LDNOT (R65): STACK_OVERFLOW when SP = SMAX. -/
def withRoom (s : State) (rest : Body) : Body :=
  if s.sp = s.cfg.smax then .error .stackOverflow else rest

/-- The popped value and the state after it, for the rest of the body. The arity check comes first, so the empty stack
is never met (R85); it would be a wrong depth. -/
def withPop (s : State) (rest : Bool → State → Body) : Body :=
  match s.pop with
  | none => .error .stackDepth
  | some (v, t) => rest v t

end Sys2Proof.Machine
end

