-- ==== Sys2Proof/Machine/Control.lean ====
section
/-! DEFINITION. END, the one control transfer (spec/40_sequencer.md R70). -/

namespace Sys2Proof.Machine

/-- The `Execute` body of END (R70): the PC goes to 0, which ends the scan. -/
def endBody (arg : Option Argument) (s : State) : Body :=
  withNoArg arg (.ok (s.setPc 0))

/-- END (R70). -/
def execEndScan (arg : Option Argument) (s : State) : Host.Outcome State Fault Refusal :=
  s.stepBody (endBody arg)

end Sys2Proof.Machine
end

