-- ==== Sys2Proof/Machine/LoadStore.lean ====
section
/-! DEFINITION. LD, LDNOT and OUT (spec/41_load_store.md R74 to R76). -/

namespace Sys2Proof.Machine

/-- The `Execute` body of a load (R74, R75): push what `f` makes of the cell. -/
def loadCell (f : Bool → Bool) (arg : Option Argument) (s : State) : Body :=
  withCell arg s fun a => withRoom s (.ok (s.push (f (s.memRead a))))

/-- The `Execute` body of OUT (R76): exactly one value on the stack; pop it and write it to the cell. -/
def storeCell (arg : Option Argument) (s : State) : Body :=
  withCell arg s fun a =>
    withDepth (decide (s.sp = 1)) (withPop s fun v t => .ok (t.memWrite a v))

/-- LD (R74). -/
def execLd (arg : Option Argument) (s : State) : Host.Outcome State Fault Refusal :=
  s.stepBody (loadCell (fun v => v) arg)

/-- LDNOT (R75). -/
def execLdnot (arg : Option Argument) (s : State) : Host.Outcome State Fault Refusal :=
  s.stepBody (loadCell (fun v => !v) arg)

/-- OUT (R76). -/
def execOut (arg : Option Argument) (s : State) : Host.Outcome State Fault Refusal :=
  s.stepBody (storeCell arg)

end Sys2Proof.Machine
end

