-- ==== Sys2Proof/Machine/LogicMem.lean ====
section
/-! DEFINITION. OR, ORNOT, AND and ANDNOT (spec/42_logic_mem.md R77 to R81). -/

namespace Sys2Proof.Machine

/-- The `Execute` body shared by the four (R78 to R81): the stack top is replaced by what `f` makes of it and the
cell. -/
def combineCell (f : Bool → Bool → Bool) (arg : Option Argument) (s : State) : Body :=
  withCell arg s fun a =>
    withDepth (decide (1 ≤ s.sp)) (withPop s fun v t => .ok (t.push (f v (t.memRead a))))

/-- OR (R78). -/
def execOr (arg : Option Argument) (s : State) : Host.Outcome State Fault Refusal :=
  s.stepBody (combineCell (fun v m => v || m) arg)

/-- ORNOT (R79): NOR, the complement of the combined result (R77). -/
def execOrnot (arg : Option Argument) (s : State) : Host.Outcome State Fault Refusal :=
  s.stepBody (combineCell (fun v m => !(v || m)) arg)

/-- AND (R80). -/
def execAnd (arg : Option Argument) (s : State) : Host.Outcome State Fault Refusal :=
  s.stepBody (combineCell (fun v m => v && m) arg)

/-- ANDNOT (R81): NAND, the complement of the combined result (R77). -/
def execAndnot (arg : Option Argument) (s : State) : Host.Outcome State Fault Refusal :=
  s.stepBody (combineCell (fun v m => !(v && m)) arg)

end Sys2Proof.Machine
end

