-- ==== Sys2Proof/Machine/LogicStack.lean ====
section
/-! DEFINITION. ORSTACK and ANDSTACK (spec/43_logic_stack.md R82, R83). -/

namespace Sys2Proof.Machine

/-- The `Execute` body shared by the two (R82, R83): pop the top and the second, push what `f` makes of them. -/
def mergeTop (f : Bool → Bool → Bool) (arg : Option Argument) (s : State) : Body :=
  withNoArg arg
    (withDepth (decide (2 ≤ s.sp))
      (withPop s fun v1 t => withPop t fun v2 u => .ok (u.push (f v1 v2))))

/-- ORSTACK (R82). -/
def execOrstack (arg : Option Argument) (s : State) : Host.Outcome State Fault Refusal :=
  s.stepBody (mergeTop (fun v1 v2 => v1 || v2) arg)

/-- ANDSTACK (R83). -/
def execAndstack (arg : Option Argument) (s : State) : Host.Outcome State Fault Refusal :=
  s.stepBody (mergeTop (fun v1 v2 => v1 && v2) arg)

end Sys2Proof.Machine
end

