-- ==== Sys2Proof/Machine/Dispatch.lean ====
section
/-! DEFINITION. One arm per instruction (spec/opcode_table.json). An arm is a whole step of its instruction
(spec/40_sequencer.md R61): fetch and advance, the instruction's body, the MODE flip, or the fault it takes. -/

namespace Sys2Proof.Machine

def exec (i : Instr) (s : State) : Host.Outcome State Fault Refusal :=
  match i with
  | .endScan arg => Sys2Proof.Machine.execEndScan arg s
  | .ld arg => Sys2Proof.Machine.execLd arg s
  | .ldnot arg => Sys2Proof.Machine.execLdnot arg s
  | .out arg => Sys2Proof.Machine.execOut arg s
  | .or arg => Sys2Proof.Machine.execOr arg s
  | .ornot arg => Sys2Proof.Machine.execOrnot arg s
  | .and arg => Sys2Proof.Machine.execAnd arg s
  | .andnot arg => Sys2Proof.Machine.execAndnot arg s
  | .orstack arg => Sys2Proof.Machine.execOrstack arg s
  | .andstack arg => Sys2Proof.Machine.execAndstack arg s

end Sys2Proof.Machine
end

