-- ==== Sys2Proof/Machine/Step.lean ====
section
/-! DEFINITION. One step of the machine: the state change of the STEP command (spec/40_sequencer.md R61, R71, R72). The
responses are in Machine/Commands.lean. -/

namespace Sys2Proof.Machine

/-- STEP: in READY, the instruction at PC; in UNLOADED and HALTED no instruction executes and no state changes
(R71, R72; log entry 8). -/
def step (s : State) : Host.Outcome State Fault Refusal :=
  match s.engine with
  | .unloaded => .next s
  | .halted => .next s
  | .ready =>
    match s.fetchInstr with
    | .error f => .fault f
    | .ok i => exec i s

/-- `s` with the instruction of the opcode table whose bits are `w` placed where the next step fetches, so that the very
next step executes it. Where a program is loaded it takes the place of the word at PC; where none is, it is the whole
program, at index 0. The block is READY afterwards, with no fault recorded (R24). This stands for the load that
CONSTRUCT makes from outside (log entry 4). -/
def State.withFetchWord (s : State) (nbits w : Nat) : State :=
  { s with
    engine := .ready
    prog := if s.pc < s.progLen then s.prog.set s.pc (tableWord nbits w) else [tableWord nbits w]
    pc := if s.pc < s.progLen then s.pc else 0
    fcode := .none
    findex := 0
    fword := 0 }

end Sys2Proof.Machine
end

