-- ==== Sys2Proof/Machine/Commands.lean ====
section
/-! DEFINITION. The host commands of LSEQ and their responses (spec/40_sequencer.md R60), with the numbers the responses
and registers carry (spec/10_state.md R23, R25; spec/60_exceptions.md R84; spec/70_reset_and_hazards.md R101). -/

namespace Sys2Proof.Machine

/-- The commands of the host port (R60). -/
inductive Command where
  /-- CONSTRUCT(words, PRESET_A, PRESET_B) (R100). -/
  | construct (words : List Word) (pa pb : Bank)
  /-- RESET (R102). -/
  | reset
  /-- STEP (R61). -/
  | step
  /-- SCAN (R68). -/
  | scan
  /-- READ(a) (R45). -/
  | read (a : Nat)
  /-- READREG(r) (R25). -/
  | readReg (r : Nat)
deriving DecidableEq, Repr

/-- The responses of the host port (R60). -/
inductive Response where
  | ok
  | reject (code : RejectCode) (index : Nat)
  | notLoaded
  | fault (code : FaultCode) (index : Nat) (word : Word)
  | done (k : Nat)
  | value (bit : Bool)
  | boundsError
  | regValue (v : BitVec 32)
  | badReg
deriving DecidableEq, Repr

/-! ## Numbers -/

/-- The encoding of STATE (R23). -/
def Engine.number : Engine → BitVec 2
  | .unloaded => 0
  | .ready => 1
  | .halted => 2

/-- The fault codes as FCODE holds them (R84). -/
def FaultCode.number : FaultCode → BitVec 3
  | .none => 0
  | .argShape => 1
  | .addrBounds => 2
  | .stackDepth => 3
  | .stackOverflow => 4

/-- The rejection codes of CONSTRUCT (R101). -/
def rejectNumber : RejectCode → Nat
  | .empty => 1
  | .tooLong => 2
  | .opcode => 3
  | .reserved => 4
  | .nonCanonical => 5

/-- The number of a BOUNDS_POLICY in CFG_BOUNDS (R25). -/
def boundsNumber : BoundsPolicy → Nat
  | .inclusive => 0
  | .strict => 1

/-- The number of a TOGGLE_POLICY in CFG_TOGGLE (R25). -/
def toggleNumber : TogglePolicy → Nat
  | .perInstruction => 0
  | .perScan => 1

/-- `ceil(log2(n))` for n at least 1. -/
def ceilLog2 (n : Nat) : Nat := if n ≤ 1 then 0 else Nat.log2 (n - 1) + 1

/-- The bits a register uses (R25, with the derived widths PCW, SPW and LW of R6 and R13). -/
def registerBits (c : Config) (r : Nat) : Nat :=
  match r with
  | 0 => 2
  | 1 => max 1 (ceilLog2 c.pmax)
  | 2 => 1
  | 3 => ceilLog2 (c.smax + 1)
  | 4 => 3
  | 5 => max 1 (ceilLog2 c.pmax)
  | 6 => 32
  | 7 => ceilLog2 (c.pmax + 1)
  | 8 => 16
  | 9 => 1
  | 10 => 1
  | 11 => 32
  | 12 => 32
  | _ => 0

/-! ## The commands -/

/-- The first word of a program that Decode rejects, with its index counted from `i` (R100). -/
def firstRejected (i : Nat) : List Word → Option (RejectCode × Nat)
  | [] => none
  | w :: rest =>
    match decodeWord w with
    | .error code => some (code, i)
    | .ok _ => firstRejected (i + 1) rest

/-- The checks of CONSTRUCT on its program, in the order of R100 and R101. -/
def rejection (c : Config) (words : List Word) : Option (RejectCode × Nat) :=
  if words.length = 0 then some (.empty, 0)
  else if c.pmax < words.length then some (.tooLong, c.pmax)
  else firstRejected 0 words

/-- CONSTRUCT (R100): a rejected program changes no state. -/
def State.construct (s : State) (words : List Word) (pa pb : Bank) : State × Response :=
  match rejection s.cfg words with
  | some (code, i) => (s, .reject code i)
  | none => (s.initialise words (Bank.ofPreset (cellCount s.cfg) pa) (Bank.ofPreset (cellCount s.cfg) pb), .ok)

/-- The response that reports the recorded fault (R71, R86). -/
def State.faultResponse (s : State) : Response := .fault s.fcode s.findex s.fword

/-- The diagnostic line of the recorded fault (R14, R24): lines are numbered from 1. -/
def State.faultLine (s : State) : Nat := s.findex + 1

/-- The steps of SCAN (R68): `k` steps have completed; at most `fuel` more run. -/
def scanSteps : Nat → Nat → State → Host.Outcome (State × Response) Fault Refusal
  | 0, _, _ => .fault .scanOverrun
  | fuel + 1, k, s =>
    match step s with
    | .next t =>
      if t.engine = .halted then .next (t, t.faultResponse)
      else if t.pc = 0 then .next (t, .done (k + 1))
      else scanSteps fuel (k + 1) t
    | .fault f => .fault f
    | .refused r => .refused r

/-- The value of a register in a block that holds a program (R25): the value zero-extended to 32 bits. -/
def State.register (s : State) (r : Nat) : Option (BitVec 32) :=
  match r with
  | 0 => some (s.engine.number.zeroExtend 32)
  | 1 => some (BitVec.ofNat 32 s.pc)
  | 2 => some (if s.mode then 1 else 0)
  | 3 => some (BitVec.ofNat 32 s.sp)
  | 4 => some (s.fcode.number.zeroExtend 32)
  | 5 => some (BitVec.ofNat 32 s.findex)
  | 6 => some s.fword
  | 7 => some (BitVec.ofNat 32 s.progLen)
  | 8 => some (BitVec.ofNat 32 s.cfg.n)
  | 9 => some (BitVec.ofNat 32 (boundsNumber s.cfg.bounds))
  | 10 => some (BitVec.ofNat 32 (toggleNumber s.cfg.toggle))
  | 11 => some (BitVec.ofNat 32 s.cfg.smax)
  | 12 => some (BitVec.ofNat 32 s.cfg.pmax)
  | _ => none

/-- READREG (R25): in UNLOADED, every register reads 0. -/
def State.readReg (s : State) (r : Nat) : Response :=
  match s.register r with
  | none => .badReg
  | some v => .regValue (if s.engine = .unloaded then 0 else v)

/-- READ (R45). -/
def State.readCell (s : State) (a : Nat) : Response :=
  if s.engine = .unloaded then .notLoaded
  else if inBounds s.cfg a then .value (s.memRead a)
  else .boundsError

/-- One host command (R60): the state after it and its response. -/
def command (c : Command) (s : State) : Host.Outcome (State × Response) Fault Refusal :=
  match c with
  | .construct words pa pb => .next (s.construct words pa pb)
  | .reset => if s.engine = .unloaded then .next (s, .notLoaded) else .next (s.restart, .ok)
  | .step =>
    match s.engine with
    | .unloaded => .next (s, .notLoaded)
    | .halted => .next (s, s.faultResponse)
    | .ready =>
      match step s with
      | .next t => .next (t, if t.engine = .halted then t.faultResponse else .ok)
      | .fault f => .fault f
      | .refused r => .refused r
  | .scan =>
    match s.engine with
    | .unloaded => .next (s, .notLoaded)
    | .halted => .next (s, s.faultResponse)
    | .ready => scanSteps s.progLen 0 s
  | .read a => .next (s, s.readCell a)
  | .readReg r => .next (s, s.readReg r)

/-- A sequence of host commands, each completed before the next begins (R40): the state after them and the responses in
order. -/
def commands : List Command → State → Host.Outcome (State × List Response) Fault Refusal
  | [], s => .next (s, [])
  | c :: rest, s =>
    match command c s with
    | .next (t, r) =>
      match commands rest t with
      | .next (u, rs) => .next (u, r :: rs)
      | .fault f => .fault f
      | .refused x => .refused x
    | .fault f => .fault f
    | .refused x => .refused x

end Sys2Proof.Machine
end

