-- ==== Sys2Proof/Safety.lean ====
section
/-! DEFINITION. What counts as a safe state and a safe run of LSEQ, and the words the statements use. Each is written
from the spec's rules, not from the machine's definitions, wherever the two could differ. -/

namespace Sys2Proof

/-! ## Words of the statements about syntax -/

/-- The number a word with ARGP = 1 has (R46). -/
def argWord (opc : Nat) (a : Argument) : Nat := opc + 128 + 256 * a.sel.toNat + 65536 * a.addr.toNat

/-- The stack entries an instruction pops (R74 to R83). -/
def Instr.pops : Instr → Nat
  | .endScan _ => 0
  | .ld _ => 0
  | .ldnot _ => 0
  | .out _ => 1
  | .or _ => 1
  | .ornot _ => 1
  | .and _ => 1
  | .andnot _ => 1
  | .orstack _ => 2
  | .andstack _ => 2

/-- The stack entries an instruction pushes (R74 to R83). -/
def Instr.pushes : Instr → Nat
  | .endScan _ => 0
  | .ld _ => 1
  | .ldnot _ => 1
  | .out _ => 0
  | .or _ => 1
  | .ornot _ => 1
  | .and _ => 1
  | .andnot _ => 1
  | .orstack _ => 1
  | .andstack _ => 1

/-- The arity precondition of an instruction on SP (R84, STACK_DEPTH). -/
def Instr.DepthOk (i : Instr) (sp : Nat) : Prop :=
  match i with
  | .endScan _ => True
  | .ld _ => True
  | .ldnot _ => True
  | .out _ => sp = 1
  | .or _ => 1 ≤ sp
  | .ornot _ => 1 ≤ sp
  | .and _ => 1 ≤ sp
  | .andnot _ => 1 ≤ sp
  | .orstack _ => 2 ≤ sp
  | .andstack _ => 2 ≤ sp

/-- The instructions that raise SP (R65). -/
def Instr.IsLoad (i : Instr) : Prop := ∃ arg, i = .ld arg ∨ i = .ldnot arg

/-- The address an instruction accesses, where it carries an argument (R50). -/
def Instr.address (i : Instr) : Option Nat := i.arg.map fun a => a.addr.toNat

/-- The address an instruction stores to: that of OUT, the only one that writes a cell (R33, R76). -/
def Instr.storeAddress : Instr → Option Nat
  | .endScan _ => none
  | .ld _ => none
  | .ldnot _ => none
  | .out arg => arg.map fun a => a.addr.toNat
  | .or _ => none
  | .ornot _ => none
  | .and _ => none
  | .andnot _ => none
  | .orstack _ => none
  | .andstack _ => none

end Sys2Proof

namespace Sys2Proof.Machine

/-! ## The invariant of the block -/

/-- A word CONSTRUCT accepts (R54, R56). -/
def accepted (w : Word) : Bool :=
  match decodeWord w with
  | .ok _ => true
  | .error _ => false

/-- The invariant of the block (R6, R15, R16, R18, R19, R24, R86): it holds at power-on and every command keeps it. -/
structure State.Inv (s : State) : Prop where
  /-- The parameters are in their ranges (R6). -/
  cfg_wf : s.cfg.wf = true
  /-- The banks and presets are in canonical form. -/
  memory_wf : Memory.wf s = true
  /-- The banks and presets have C cells (R28). -/
  bankA_within : Bank.within s.bankA (cellCount s.cfg) = true
  bankB_within : Bank.within s.bankB (cellCount s.cfg) = true
  presetA_within : Bank.within s.presetA (cellCount s.cfg) = true
  presetB_within : Bank.within s.presetB (cellCount s.cfg) = true
  /-- `0 <= SP <= SMAX` (R13). -/
  depth : s.sp ≤ s.cfg.smax
  /-- `1 <= L <= PMAX` and `0 <= PC <= L-1` once a program is loaded (R13, R16). -/
  program : s.engine ≠ .unloaded → 1 ≤ s.progLen ∧ s.progLen ≤ s.cfg.pmax ∧ s.pc < s.progLen
  /-- Every word of the program is one CONSTRUCT accepts (R100). -/
  words : s.engine ≠ .unloaded → ∀ w ∈ s.prog, accepted w = true
  /-- The fault record is zero unless the block is halted (R24). -/
  noRecord : s.engine ≠ .halted → s.fcode = .none ∧ s.findex = 0 ∧ s.fword = 0
  /-- In HALTED the record names a fault, its instruction and its word, and PC holds the advanced value (R86). -/
  record : s.engine = .halted →
    s.fcode ≠ .none ∧ s.prog[s.findex]? = some s.fword ∧ s.pc = (s.findex + 1) % s.prog.length

/-! ## Words of the statements about states -/

/-- An address that names a cell: `a <= N`, and `a < N` under STRICT (R29). -/
abbrev LegalAddress (c : Config) (a : Nat) : Prop := a ≤ c.n ∧ (c.bounds = .strict → a < c.n)

/-- The read bank (R12, R17). -/
def State.readBank (s : State) : Bank := if s.mode then s.bankB else s.bankA

/-- The write bank (R12, R17). -/
def State.writeBank (s : State) : Bank := if s.mode then s.bankA else s.bankB

/-- The PC that the fetch leaves (R62). -/
def State.nextPc (s : State) : Nat := (s.pc + 1) % s.prog.length

/-- MODE after a step that completes and leaves the given PC (R66). -/
def State.modeAfter (s : State) (pc : Nat) : Bool :=
  if s.cfg.toggle = .perInstruction ∨ pc = 0 then !s.mode else s.mode

/-- The state after a step that completes, writes no cell, and leaves the given PC and stack: the other elements are as
before (R61, R66). -/
def State.completed (s : State) (pc : Nat) (stk : List Bool) : State :=
  { s with pc := pc, stk := stk, mode := s.modeAfter pc }

/-- The state after a step that faults (R86): PC advanced, the block halted, the record written, and nothing else
changed. -/
def State.faulted (s : State) (code : FaultCode) (w : Word) : State :=
  { s with pc := s.nextPc, engine := .halted, fcode := code, findex := s.pc, fword := w }

/-- The address the instruction at PC stores to, if it is an OUT that carries one (R76). -/
def State.outAddress (s : State) : Option Nat :=
  match s.fetchInstr with
  | .ok i => i.storeAddress
  | .error _ => none

/-- The word holds END (R105). -/
def holdsEnd (w : Word) : Bool :=
  match decodeWord w with
  | .ok (.endScan _) => true
  | _ => false

/-- `KSCAN` (R105): one more than the lowest index that holds END, or L if none does. -/
def kscan (prog : List Word) : Nat :=
  match prog.findIdx? holdsEnd with
  | some e => e + 1
  | none => prog.length

/-! ## Runs -/

/-- `k` steps, stopping where a step stops. -/
def stepTimes : Nat → State → Host.Outcome State Fault Refusal
  | 0, s => .next s
  | k + 1, s =>
    match step s with
    | .next t => stepTimes k t
    | .fault f => .fault f
    | .refused r => .refused r

/-- The states of `k` steps that all complete without fault, the last of them in READY (R12, R67). -/
def Run (tr : Nat → State) (k : Nat) : Prop :=
  (∀ j < k, step (tr j) = .next (tr (j + 1))) ∧ ∀ j ≤ k, (tr j).engine = .ready

/-- The completed scan boundaries among the first `k` steps: steps that left PC = 0 (R67). -/
def boundaries (tr : Nat → State) (k : Nat) : Nat := (List.range k).countP fun j => decide ((tr (j + 1)).pc = 0)

/-- A state in which the block has just been constructed or reset (R100, R102), as far as visibility of writes goes. -/
def State.Fresh (s : State) : Prop :=
  s.engine = .ready ∧ s.mode = false ∧ s.bankA = s.presetA ∧ s.bankB = s.presetB

/-- The states between `k` SCANs that all end at a scan boundary, with the number of steps each ran (R106). -/
def ScanRun (sc : Nat → State) (steps : Nat → Nat) (k : Nat) : Prop :=
  ∀ j < k, command .scan (sc j) = .next (sc (j + 1), .done (steps j))

end Sys2Proof.Machine
end

