-- ==== Sys2Proof/Certificates/Slice0/Obligations.lean ====
section
/-! DEFINITION. The statements for the provers. Each docstring names the rule of spec/ it formalises. -/

open Sys2Proof Sys2Proof.Machine

/-! ## Encoding -/

/-- R51: every instruction has exactly one word, and every accepted word is exactly one instruction. -/
def Obligations.DecodeEncodeRoundTrip : Prop :=
  (∀ i : Instr, decodeWord (encode i) = .ok i) ∧ ∀ (w : Word) (i : Instr), decodeWord w = .ok i → encode i = w

/-- R56: the decode function, read off the bits of the word as a number; the first failing check gives the code. -/
def Obligations.DecodeFollowsFieldsInOrder : Prop :=
  ∀ w : Word,
    (10 ≤ w.toNat % 16 → decodeWord w = .error .opcode) ∧
    (w.toNat % 16 < 10 → w.toNat / 16 % 8 ≠ 0 → decodeWord w = .error .reserved) ∧
    (w.toNat % 16 < 10 → w.toNat / 16 % 8 = 0 → w.toNat / 128 % 2 = 0 →
      (w.toNat / 256 % 256 ≠ 0 ∨ w.toNat / 65536 ≠ 0) → decodeWord w = .error .nonCanonical) ∧
    (w.toNat % 16 < 10 → w.toNat / 16 % 8 = 0 → w.toNat / 128 % 2 = 0 →
      w.toNat / 256 % 256 = 0 → w.toNat / 65536 = 0 →
      ∃ op, [Instr.endScan, .ld, .ldnot, .out, .or, .ornot, .and, .andnot, .orstack, .andstack][w.toNat % 16]? = some op ∧
        decodeWord w = .ok (op none)) ∧
    (w.toNat % 16 < 10 → w.toNat / 16 % 8 = 0 → w.toNat / 128 % 2 = 1 →
      ∃ op, [Instr.endScan, .ld, .ldnot, .out, .or, .ornot, .and, .andnot, .orstack, .andstack][w.toNat % 16]? = some op ∧
        decodeWord w = .ok (op (some
          { sel := BitVec.ofNat 8 (w.toNat / 256 % 256), addr := BitVec.ofNat 16 (w.toNat / 65536) })))

/-- R59: the spec's table of lines and words, each with the instruction the word stands for. -/
def Obligations.ExampleLinesEncodeAndDecode : Prop :=
  ∀ row ∈ ([
      (⟨.endScan, none⟩, 0x00000000, .endScan none),
      (⟨.ld, some ('M', 0x000)⟩, 0x00004D81, .ld (some ⟨0x4D, 0x0000⟩)),
      (⟨.ldnot, some ('M', 0x000)⟩, 0x00004D82, .ldnot (some ⟨0x4D, 0x0000⟩)),
      (⟨.out, some ('M', 0x001)⟩, 0x00014D83, .out (some ⟨0x4D, 0x0001⟩)),
      (⟨.out, some ('M', 0x000)⟩, 0x00004D83, .out (some ⟨0x4D, 0x0000⟩)),
      (⟨.or, some ('M', 0x023)⟩, 0x00234D84, .or (some ⟨0x4D, 0x0023⟩)),
      (⟨.and, some ('M', 0x001)⟩, 0x00014D86, .and (some ⟨0x4D, 0x0001⟩)),
      (⟨.orstack, none⟩, 0x00000008, .orstack none),
      (⟨.andstack, none⟩, 0x00000009, .andstack none),
      (⟨.out, some ('M', 0x100)⟩, 0x01004D83, .out (some ⟨0x4D, 0x0100⟩))] : List (Line × Word × Instr)),
    assembleLine row.1 = row.2.1 ∧ decodeWord row.2.1 = .ok row.2.2

/-- R57, R50: a line with an argument encodes to a word that decodes to its mnemonic with the letter's code and the
address, or 0xFFFF where the address is above it; and 0xFFFF names no cell of any instance. That the code is the low 8
bits of the character code, also of a character that is no letter A to Z, is the model's own reading (PRESUMED, log
entry 14). -/
def Obligations.TextAddressIsClampedOutOfBounds : Prop :=
  (∀ (m : Mnemonic) (letter : Char) (hex : Nat),
    decodeWord (assembleLine ⟨m, some (letter, hex)⟩) =
      .ok (m.instr (some ⟨BitVec.ofNat 8 letter.toNat, if hex ≤ 0xFFFF then BitVec.ofNat 16 hex else 0xFFFF⟩))) ∧
  ∀ c : Config, c.wf = true → ¬ LegalAddress c (0xFFFF : Addr).toNat

/-- With every SEL byte read as a bank letter, an instruction prints back to a line that assembles to its word again. The
reading is the model's own (PRESUMED, log entry 14): R49 says that SEL is kept so that a program can be printed back, but
R57 has a line only for a letter A to Z (`Line.wf`), and for any other SEL byte the printed line is none of R57's. -/
def Obligations.PrintedInstructionAssemblesBack : Prop := ∀ i : Instr, assembleLine (printLine i) = encode i

/-- R35: a program carried over a byte-wide channel arrives as the same words, least significant byte first. -/
def Obligations.ByteChannelIsLittleEndian : Prop :=
  (∀ w : Word, (bytesOfWord w).map BitVec.toNat =
    [w.toNat % 256, w.toNat / 256 % 256, w.toNat / 65536 % 256, w.toNat / 16777216]) ∧
  ∀ ws : List Word, wordsOfBytes (ws.flatMap bytesOfWord) = some ws

/-! ## The step -/

/-- R61, R62: in READY, where the word at PC decodes to an instruction, the step is `exec` of it; the advance of PC, the
MODE flip and the fault entry are inside `exec`, so nothing is added around it. -/
def Obligations.StepRunsDecodedInstruction : Prop :=
  ∀ (s : State) (w : Word) (i : Instr), s.engine = .ready → s.prog[s.pc]? = some w → decodeWord w = .ok i →
    step s = exec i s

/-- R62: in READY the word at PC exists and the fetch does not stop; the step answers a next state, with PC at 0 if the
instruction is an END that completes, and at `(ipc + 1) mod L` otherwise, a faulting instruction included. -/
def Obligations.FetchExistsAndPcAdvances : Prop :=
  ∀ s : State, s.Inv → s.engine = .ready →
    ∃ w i t, s.prog[s.pc]? = some w ∧ decodeWord w = .ok i ∧ step s = .next t ∧
      t.pc = if i = .endScan none then 0 else (s.pc + 1) % s.prog.length

/-! ## The ten instructions: effect, traps and frame (every element not named is unchanged), and encoding -/

/-- R70: END. -/
def Obligations.EndResetsThePc : Prop :=
  (encode (.endScan none)).toNat = 0 ∧
  (∀ (s : State) (w : Word), s.prog[s.pc]? = some w →
    exec (.endScan none) s = .next (s.completed 0 s.stk) ∧
    ∀ a, exec (.endScan (some a)) s = .next (s.faulted .argShape w)) ∧
  ∀ (s t : State) (e : Nat), s.Inv → s.engine = .ready → s.pc ≤ e → s.prog[e]? = some 0 → step s = .next t → t.pc ≤ e

/-- R74: LD. -/
def Obligations.LdPushesTheCell : Prop :=
  (∀ a, (encode (.ld (some a))).toNat = argWord 1 a) ∧
  ∀ (s : State) (w : Word), s.prog[s.pc]? = some w →
    (exec (.ld none) s = .next (s.faulted .argShape w)) ∧
    (∀ a : Argument, ¬ LegalAddress s.cfg a.addr.toNat → exec (.ld (some a)) s = .next (s.faulted .addrBounds w)) ∧
    (∀ a : Argument, LegalAddress s.cfg a.addr.toNat → s.stk.length = s.cfg.smax →
      exec (.ld (some a)) s = .next (s.faulted .stackOverflow w)) ∧
    (∀ a : Argument, LegalAddress s.cfg a.addr.toNat → s.stk.length ≠ s.cfg.smax →
      exec (.ld (some a)) s = .next (s.completed s.nextPc (Bank.read s.readBank a.addr.toNat :: s.stk)))

/-- R75: LDNOT. -/
def Obligations.LdnotPushesTheComplement : Prop :=
  (∀ a, (encode (.ldnot (some a))).toNat = argWord 2 a) ∧
  ∀ (s : State) (w : Word), s.prog[s.pc]? = some w →
    (exec (.ldnot none) s = .next (s.faulted .argShape w)) ∧
    (∀ a : Argument, ¬ LegalAddress s.cfg a.addr.toNat → exec (.ldnot (some a)) s = .next (s.faulted .addrBounds w)) ∧
    (∀ a : Argument, LegalAddress s.cfg a.addr.toNat → s.stk.length = s.cfg.smax →
      exec (.ldnot (some a)) s = .next (s.faulted .stackOverflow w)) ∧
    (∀ a : Argument, LegalAddress s.cfg a.addr.toNat → s.stk.length ≠ s.cfg.smax →
      exec (.ldnot (some a)) s = .next (s.completed s.nextPc ((!Bank.read s.readBank a.addr.toNat) :: s.stk)))

/-- R76: OUT. The write bank's cell at the address gets the value; the banks are otherwise as before. -/
def Obligations.OutWritesTheCell : Prop :=
  (∀ a, (encode (.out (some a))).toNat = argWord 3 a) ∧
  ∀ (s : State) (w : Word), s.prog[s.pc]? = some w →
    (exec (.out none) s = .next (s.faulted .argShape w)) ∧
    (∀ a : Argument, ¬ LegalAddress s.cfg a.addr.toNat → exec (.out (some a)) s = .next (s.faulted .addrBounds w)) ∧
    (∀ a : Argument, LegalAddress s.cfg a.addr.toNat → s.stk.length ≠ 1 →
      exec (.out (some a)) s = .next (s.faulted .stackDepth w)) ∧
    (∀ (a : Argument) (v : Bool), LegalAddress s.cfg a.addr.toNat → s.stk = [v] →
      exec (.out (some a)) s = .next
        { s.completed s.nextPc [] with
          bankA := if s.mode then Bank.write s.bankA a.addr.toNat v else s.bankA
          bankB := if s.mode then s.bankB else Bank.write s.bankB a.addr.toNat v })

/-- R78: OR. -/
def Obligations.OrCombinesTopWithCell : Prop :=
  (∀ a, (encode (.or (some a))).toNat = argWord 4 a) ∧
  ∀ (s : State) (w : Word), s.prog[s.pc]? = some w →
    (exec (.or none) s = .next (s.faulted .argShape w)) ∧
    (∀ a : Argument, ¬ LegalAddress s.cfg a.addr.toNat → exec (.or (some a)) s = .next (s.faulted .addrBounds w)) ∧
    (∀ a : Argument, LegalAddress s.cfg a.addr.toNat → s.stk = [] →
      exec (.or (some a)) s = .next (s.faulted .stackDepth w)) ∧
    (∀ (a : Argument) (v : Bool) (below : List Bool), LegalAddress s.cfg a.addr.toNat → s.stk = v :: below →
      exec (.or (some a)) s =
        .next (s.completed s.nextPc ((v || Bank.read s.readBank a.addr.toNat) :: below)))

/-- R79: ORNOT, the NOR of the top and the cell. -/
def Obligations.OrnotCombinesTopWithCell : Prop :=
  (∀ a, (encode (.ornot (some a))).toNat = argWord 5 a) ∧
  ∀ (s : State) (w : Word), s.prog[s.pc]? = some w →
    (exec (.ornot none) s = .next (s.faulted .argShape w)) ∧
    (∀ a : Argument, ¬ LegalAddress s.cfg a.addr.toNat → exec (.ornot (some a)) s = .next (s.faulted .addrBounds w)) ∧
    (∀ a : Argument, LegalAddress s.cfg a.addr.toNat → s.stk = [] →
      exec (.ornot (some a)) s = .next (s.faulted .stackDepth w)) ∧
    (∀ (a : Argument) (v : Bool) (below : List Bool), LegalAddress s.cfg a.addr.toNat → s.stk = v :: below →
      exec (.ornot (some a)) s =
        .next (s.completed s.nextPc ((!(v || Bank.read s.readBank a.addr.toNat)) :: below)))

/-- R80: AND. -/
def Obligations.AndCombinesTopWithCell : Prop :=
  (∀ a, (encode (.and (some a))).toNat = argWord 6 a) ∧
  ∀ (s : State) (w : Word), s.prog[s.pc]? = some w →
    (exec (.and none) s = .next (s.faulted .argShape w)) ∧
    (∀ a : Argument, ¬ LegalAddress s.cfg a.addr.toNat → exec (.and (some a)) s = .next (s.faulted .addrBounds w)) ∧
    (∀ a : Argument, LegalAddress s.cfg a.addr.toNat → s.stk = [] →
      exec (.and (some a)) s = .next (s.faulted .stackDepth w)) ∧
    (∀ (a : Argument) (v : Bool) (below : List Bool), LegalAddress s.cfg a.addr.toNat → s.stk = v :: below →
      exec (.and (some a)) s =
        .next (s.completed s.nextPc ((v && Bank.read s.readBank a.addr.toNat) :: below)))

/-- R81: ANDNOT, the NAND of the top and the cell. -/
def Obligations.AndnotCombinesTopWithCell : Prop :=
  (∀ a, (encode (.andnot (some a))).toNat = argWord 7 a) ∧
  ∀ (s : State) (w : Word), s.prog[s.pc]? = some w →
    (exec (.andnot none) s = .next (s.faulted .argShape w)) ∧
    (∀ a : Argument, ¬ LegalAddress s.cfg a.addr.toNat → exec (.andnot (some a)) s = .next (s.faulted .addrBounds w)) ∧
    (∀ a : Argument, LegalAddress s.cfg a.addr.toNat → s.stk = [] →
      exec (.andnot (some a)) s = .next (s.faulted .stackDepth w)) ∧
    (∀ (a : Argument) (v : Bool) (below : List Bool), LegalAddress s.cfg a.addr.toNat → s.stk = v :: below →
      exec (.andnot (some a)) s =
        .next (s.completed s.nextPc ((!(v && Bank.read s.readBank a.addr.toNat)) :: below)))

/-- R82: ORSTACK. -/
def Obligations.OrstackMergesTheTopTwo : Prop :=
  (encode (.orstack none)).toNat = 8 ∧
  ∀ (s : State) (w : Word), s.prog[s.pc]? = some w →
    (∀ a, exec (.orstack (some a)) s = .next (s.faulted .argShape w)) ∧
    (s.stk.length < 2 → exec (.orstack none) s = .next (s.faulted .stackDepth w)) ∧
    (∀ (v1 v2 : Bool) (below : List Bool), s.stk = v1 :: v2 :: below →
      exec (.orstack none) s = .next (s.completed s.nextPc ((v1 || v2) :: below)))

/-- R83: ANDSTACK. -/
def Obligations.AndstackMergesTheTopTwo : Prop :=
  (encode (.andstack none)).toNat = 9 ∧
  ∀ (s : State) (w : Word), s.prog[s.pc]? = some w →
    (∀ a, exec (.andstack (some a)) s = .next (s.faulted .argShape w)) ∧
    (s.stk.length < 2 → exec (.andstack none) s = .next (s.faulted .stackDepth w)) ∧
    (∀ (v1 v2 : Bool) (below : List Bool), s.stk = v1 :: v2 :: below →
      exec (.andstack none) s = .next (s.completed s.nextPc ((v1 && v2) :: below)))

/-! ## Rules over all instructions -/

/-- R65: the checks in their order, for every instruction: the first that fails is raised, before any effect but the
advance of PC; if none fails the step completes and raises no fault. -/
def Obligations.FirstFailingCheckIsRaised : Prop :=
  ∀ (i : Instr) (s : State) (w : Word), s.prog[s.pc]? = some w →
    (i.wf = false → exec i s = .next (s.faulted .argShape w)) ∧
    (i.wf = true → (∀ a, i.address = some a → ¬ LegalAddress s.cfg a) → i.address ≠ none →
      exec i s = .next (s.faulted .addrBounds w)) ∧
    (i.wf = true → (∀ a, i.address = some a → LegalAddress s.cfg a) → ¬ i.DepthOk s.stk.length →
      exec i s = .next (s.faulted .stackDepth w)) ∧
    (i.wf = true → (∀ a, i.address = some a → LegalAddress s.cfg a) → i.DepthOk s.stk.length → i.IsLoad →
      s.stk.length = s.cfg.smax → exec i s = .next (s.faulted .stackOverflow w)) ∧
    (i.wf = true → (∀ a, i.address = some a → LegalAddress s.cfg a) → i.DepthOk s.stk.length →
      (i.IsLoad → s.stk.length ≠ s.cfg.smax) →
      ∃ t, exec i s = .next t ∧ t.engine = s.engine ∧ t.fcode = s.fcode ∧ t.findex = s.findex ∧ t.fword = s.fword)

/-- R86: a step that faults halts the block with the record written and PC advanced, leaves everything else as it was,
and the host gets the fault response; a SCAN that a fault ends answers with the recorded fault. -/
def Obligations.FaultEntryIsPrecise : Prop :=
  (∀ (s t : State) (w : Word), s.engine = .ready → s.prog[s.pc]? = some w → step s = .next t → t.engine = .halted →
    t.fcode ≠ .none ∧ t = s.faulted t.fcode w ∧ command .step s = .next (t, .fault t.fcode s.pc w)) ∧
  ∀ (s t : State) (r : Response), s.engine = .ready → command .scan s = .next (t, r) → t.engine = .halted →
    r = .fault t.fcode t.findex t.fword

/-- R66: a step that completes flips MODE under PER_INSTRUCTION, and under PER_SCAN exactly if it leaves PC = 0; a step
that faults does not flip it. -/
def Obligations.CompletedStepTogglesMode : Prop :=
  ∀ s t : State, s.engine = .ready → step s = .next t →
    (t.engine = .ready → s.cfg.toggle = .perInstruction → t.mode = !s.mode) ∧
    (t.engine = .ready → s.cfg.toggle = .perScan → t.pc = 0 → t.mode = !s.mode) ∧
    (t.engine = .ready → s.cfg.toggle = .perScan → t.pc ≠ 0 → t.mode = s.mode) ∧
    (t.engine = .halted → t.mode = s.mode)

/-- R67: after n steps without fault from a state with MODE = 0, MODE is n mod 2 under PER_INSTRUCTION, and the number of
completed scan boundaries mod 2 under PER_SCAN. -/
def Obligations.ModeIsStepParity : Prop :=
  ∀ (tr : Nat → State) (n : Nat), Run tr n → (tr 0).mode = false →
    ((tr 0).cfg.toggle = .perInstruction → (tr n).mode = decide (n % 2 = 1)) ∧
    ((tr 0).cfg.toggle = .perScan → (tr n).mode = decide (boundaries tr n % 2 = 1))

/-- R33, R86: the frame of every form that stores nothing: all instructions but OUT, whether they complete or fault.
Every cell of both banks, the program, the presets and the parameters are as before; PC, MODE and the stack may change;
the engine state and the fault record change only by fault entry. -/
def Obligations.NonStoringFrame : Prop :=
  ∀ (i : Instr) (s t : State), (∀ arg, i ≠ .out arg) → exec i s = .next t →
    (∀ a, Bank.read t.bankA a = Bank.read s.bankA a ∧ Bank.read t.bankB a = Bank.read s.bankB a) ∧
    t.prog = s.prog ∧ t.presetA = s.presetA ∧ t.presetB = s.presetB ∧ t.cfg = s.cfg ∧
    ((t.engine = s.engine ∧ t.fcode = s.fcode ∧ t.findex = s.findex ∧ t.fword = s.fword) ∨
      (t.engine = .halted ∧ t.findex = s.pc ∧ s.prog[s.pc]? = some t.fword ∧ t.stk = s.stk ∧ t.mode = s.mode))

/-- R31, R33, R76: the frame of OUT. Where it completes, the cell of the write bank at its argument's address reads as
the value popped, every other cell of the write bank and every cell of the read bank read as before; where it faults,
every cell does. The program, the presets and the parameters are as before. -/
def Obligations.OutStoresOnlyItsCell : Prop :=
  ∀ (s t : State) (a : Argument), s.Inv → s.engine = .ready → exec (.out (some a)) s = .next t →
    (t.engine = .ready → ∀ (v : Bool) (x : Nat), s.stk.head? = some v →
      Bank.read (if s.mode then t.bankA else t.bankB) x =
        (if x = a.addr.toNat then v else Bank.read (if s.mode then s.bankA else s.bankB) x) ∧
      Bank.read (if s.mode then t.bankB else t.bankA) x = Bank.read (if s.mode then s.bankB else s.bankA) x) ∧
    (t.engine = .halted → ∀ x,
      Bank.read t.bankA x = Bank.read s.bankA x ∧ Bank.read t.bankB x = Bank.read s.bankB x) ∧
    t.prog = s.prog ∧ t.presetA = s.presetA ∧ t.presetB = s.presetB ∧ t.cfg = s.cfg

/-- R74 to R83, R85: an instruction that completes finds every value it pops, replaces exactly those entries by the ones
it pushes, and leaves the entries below them; one that faults leaves the stack. -/
def Obligations.StackChangesOnlyAtTheTop : Prop :=
  ∀ (i : Instr) (s t : State), s.engine = .ready → exec i s = .next t →
    (t.engine = .ready → i.pops ≤ s.stk.length ∧ t.stk.length + i.pops = s.stk.length + i.pushes ∧
      t.stk.drop i.pushes = s.stk.drop i.pops) ∧
    (t.engine = .halted → t.stk = s.stk)

/-- R32: no instruction's effect depends on the bank letter. -/
def Obligations.BankLetterIsIgnored : Prop :=
  ∀ (m : Mnemonic) (a : Addr) (sel sel' : Byte) (s : State),
    exec (m.instr (some ⟨sel, a⟩)) s = exec (m.instr (some ⟨sel', a⟩)) s

/-- R43, R6: only CONSTRUCT changes the program or the presets, and no command changes the parameters. -/
def Obligations.OnlyConstructChangesTheProgram : Prop :=
  ∀ (c : Command) (s t : State) (r : Response), command c s = .next (t, r) →
    t.cfg = s.cfg ∧
    ((∀ words pa pb, c ≠ .construct words pa pb) →
      t.prog = s.prog ∧ t.presetA = s.presetA ∧ t.presetB = s.presetB)

/-! ## Memory -/

/-- R28, R29: the bounds predicate under each policy, and that it holds exactly of the addresses of the C cells. -/
def Obligations.InBoundsNamesACell : Prop :=
  ∀ (c : Config) (a : Nat),
    (c.bounds = .inclusive → (inBounds c a = true ↔ a ≤ c.n) ∧ cellCount c = c.n + 1) ∧
    (c.bounds = .strict → (inBounds c a = true ↔ a < c.n) ∧ cellCount c = c.n) ∧
    (inBounds c a = true ↔ a < cellCount c)

/-- R31: MemWrite stores the bit into the cell of the current write bank and changes only that one cell. -/
def Obligations.MemWriteChangesOneCell : Prop :=
  ∀ (s : State) (a : Nat) (v : Bool), Memory.wf s = true →
    (∀ x, Bank.read (s.memWrite a v).writeBank x = if x = a then v else Bank.read s.writeBank x) ∧
    (s.memWrite a v).readBank = s.readBank ∧
    s.memWrite a v = { s with bankA := (s.memWrite a v).bankA, bankB := (s.memWrite a v).bankB }

/-- R37: repeating a write under the same MODE leaves the same state. -/
def Obligations.WritesAreIdempotent : Prop :=
  ∀ (s : State) (a : Nat) (v : Bool), Memory.wf s = true →
    (s.memWrite a v).memWrite a v = s.memWrite a v

/-- R104 under PER_INSTRUCTION: a read at step m sees the latest OUT to its address at a step n < m with m - n odd, and
the preset of its bank if there is none. -/
def Obligations.VisibilityPerInstruction : Prop :=
  ∀ (tr : Nat → State) (m a : Nat), Run tr m → (tr 0).Inv → (tr 0).Fresh → (tr 0).cfg.toggle = .perInstruction →
    (∀ n < m, (m - n) % 2 = 1 → (tr n).outAddress = some a →
      (∀ j, n < j → j < m → (m - j) % 2 = 1 → (tr j).outAddress ≠ some a) →
      (tr n).stk = [(tr m).memRead a]) ∧
    ((∀ j < m, (m - j) % 2 = 1 → (tr j).outAddress ≠ some a) →
      (tr m).memRead a = Bank.read (if m % 2 = 0 then (tr 0).presetA else (tr 0).presetB) a)

/-- R104 under PER_SCAN: a read in scan s sees the latest OUT to its address in a scan s' < s with s - s' odd, and the
preset of its bank if there is none; it never sees a write of its own scan. -/
def Obligations.VisibilityPerScan : Prop :=
  ∀ (tr : Nat → State) (m a : Nat), Run tr m → (tr 0).Inv → (tr 0).Fresh → (tr 0).cfg.toggle = .perScan →
    (∀ n < m, (boundaries tr m - boundaries tr n) % 2 = 1 → (tr n).outAddress = some a →
      (∀ j, n < j → j < m → (boundaries tr m - boundaries tr j) % 2 = 1 → (tr j).outAddress ≠ some a) →
      (tr n).stk = [(tr m).memRead a]) ∧
    ((∀ j < m, (boundaries tr m - boundaries tr j) % 2 = 1 → (tr j).outAddress ≠ some a) →
      (tr m).memRead a = Bank.read (if boundaries tr m % 2 = 0 then (tr 0).presetA else (tr 0).presetB) a)

/-- R108: a cell that no OUT of the program writes keeps its preset in each bank, and under PER_INSTRUCTION a read of it
at step m returns bank A's preset for even m and bank B's for odd m. -/
def Obligations.UnwrittenCellKeepsItsPreset : Prop :=
  ∀ (tr : Nat → State) (m a : Nat), Run tr m → (tr 0).Inv → (tr 0).Fresh →
    (∀ w ∈ (tr 0).prog, ∀ x : Argument, decodeWord w = .ok (.out (some x)) → x.addr.toNat ≠ a) →
    Bank.read (tr m).bankA a = Bank.read (tr 0).presetA a ∧
    Bank.read (tr m).bankB a = Bank.read (tr 0).presetB a ∧
    ((tr 0).cfg.toggle = .perInstruction →
      (tr m).memRead a = Bank.read (if m % 2 = 0 then (tr 0).presetA else (tr 0).presetB) a)

/-! ## Host commands -/

/-- R45: READ returns the cell of the read bank of the current MODE, BOUNDS_ERROR outside the bank and NOT_LOADED in
UNLOADED, and changes no state. -/
def Obligations.ReadReturnsTheReadBankCell : Prop :=
  ∀ (s : State) (a : Nat),
    (s.engine = .unloaded → command (.read a) s = .next (s, .notLoaded)) ∧
    (s.engine ≠ .unloaded → ¬ LegalAddress s.cfg a → command (.read a) s = .next (s, .boundsError)) ∧
    (s.engine ≠ .unloaded → LegalAddress s.cfg a →
      command (.read a) s = .next (s, .value (Bank.read s.readBank a)))

/-- R25: the register map: what READREG of each number answers, in each engine state, and that it changes no state. -/
def Obligations.ReadRegFollowsTheMap : Prop :=
  ∀ (s : State) (r : Nat),
    (13 ≤ r → command (.readReg r) s = .next (s, .badReg)) ∧
    (r < 13 → s.engine = .unloaded → command (.readReg r) s = .next (s, .regValue 0)) ∧
    (r < 13 → s.engine ≠ .unloaded → ∃ v : Nat,
      [(if s.engine = .ready then 1 else 2), s.pc, (if s.mode then 1 else 0), s.stk.length,
        (match s.fcode with
          | .none => 0
          | .argShape => 1
          | .addrBounds => 2
          | .stackDepth => 3
          | .stackOverflow => 4),
        s.findex, s.fword.toNat, s.prog.length, s.cfg.n, (if s.cfg.bounds = .inclusive then 0 else 1),
        (if s.cfg.toggle = .perInstruction then 0 else 1), s.cfg.smax, s.cfg.pmax][r]? = some v ∧
      command (.readReg r) s = .next (s, .regValue (BitVec.ofNat 32 v)))

/-- R25, R6: every register's value fits the bits the map gives it, so all bits above them read 0. -/
def Obligations.RegisterFitsItsBits : Prop :=
  ∀ (s : State) (r : Nat) (v : BitVec 32), s.Inv → command (.readReg r) s = .next (s, .regValue v) →
    v.toNat < 2 ^ registerBits s.cfg r

/-- R100: a CONSTRUCT that passes every check loads the program and initialises every element; both banks and both
presets hold the images given, cell by cell. -/
def Obligations.ConstructInitialisesEverything : Prop :=
  ∀ (s : State) (words : List Word) (pa pb : Bank), 1 ≤ words.length → words.length ≤ s.cfg.pmax →
    (∀ w ∈ words, accepted w = true) →
    ∃ t, command (.construct words pa pb) s = .next (t, .ok) ∧
      t.prog = words ∧ t.pc = 0 ∧ t.mode = false ∧ t.stk = [] ∧ t.fcode = .none ∧ t.findex = 0 ∧ t.fword = 0 ∧
      t.engine = .ready ∧ t.cfg = s.cfg ∧ t.bankA = t.presetA ∧ t.bankB = t.presetB ∧
      (∀ a, Bank.read t.bankA a = if a < cellCount s.cfg then Bank.read pa a else false) ∧
      ∀ a, Bank.read t.bankB a = if a < cellCount s.cfg then Bank.read pb a else false

/-- R101: the rejections of CONSTRUCT, in table order, with their codes and the index reported; a rejected CONSTRUCT
changes no state. -/
def Obligations.ConstructRejectsInOrder : Prop :=
  (rejectNumber .empty = 1 ∧ rejectNumber .tooLong = 2 ∧ rejectNumber .opcode = 3 ∧ rejectNumber .reserved = 4 ∧
    rejectNumber .nonCanonical = 5) ∧
  ∀ (s : State) (words : List Word) (pa pb : Bank),
    (words = [] → command (.construct words pa pb) s = .next (s, .reject .empty 0)) ∧
    (words ≠ [] → s.cfg.pmax < words.length →
      command (.construct words pa pb) s = .next (s, .reject .tooLong s.cfg.pmax)) ∧
    (∀ (i : Nat) (w : Word) (code : RejectCode), words.length ≤ s.cfg.pmax → words[i]? = some w →
      decodeWord w = .error code → (∀ (j : Nat) (u : Word), j < i → words[j]? = some u → accepted u = true) →
      command (.construct words pa pb) s = .next (s, .reject code i))

/-- R102: RESET has exactly the effect of a CONSTRUCT with the current program and presets, and cannot be rejected; in
UNLOADED it answers NOT_LOADED. -/
def Obligations.ResetIsReconstruction : Prop :=
  ∀ s : State, s.Inv →
    (s.engine = .unloaded → command .reset s = .next (s, .notLoaded)) ∧
    (s.engine ≠ .unloaded →
      command .reset s = command (.construct s.prog s.presetA s.presetB) s ∧
      ∃ t, command .reset s = .next (t, .ok) ∧ t.engine = .ready ∧ t.fcode = .none)

/-- R72: in UNLOADED, STEP, SCAN, READ and RESET answer NOT_LOADED and change no state; CONSTRUCT and READREG are
accepted. -/
def Obligations.UnloadedAcceptsConstructAndReadreg : Prop :=
  ∀ s : State, s.engine = .unloaded →
    command .step s = .next (s, .notLoaded) ∧ command .scan s = .next (s, .notLoaded) ∧
    (∀ a, command (.read a) s = .next (s, .notLoaded)) ∧ command .reset s = .next (s, .notLoaded) ∧
    (∀ words pa pb, 1 ≤ words.length → words.length ≤ s.cfg.pmax → (∀ w ∈ words, accepted w = true) →
      ∃ t, command (.construct words pa pb) s = .next (t, .ok) ∧ t.engine = .ready) ∧
    ∀ r, r < 13 → command (.readReg r) s = .next (s, .regValue 0)

/-- R71: in HALTED, STEP and SCAN execute nothing, change no state and answer the recorded fault, and only RESET or a
successful CONSTRUCT leaves HALTED; `step` is the state change of STEP. -/
def Obligations.HaltedExecutesNothing : Prop :=
  ∀ s : State, s.engine = .halted →
    step s = .next s ∧
    command .step s = .next (s, .fault s.fcode s.findex s.fword) ∧
    command .scan s = .next (s, .fault s.fcode s.findex s.fword) ∧
    ∀ (c : Command) (t : State) (r : Response), command c s = .next (t, r) → t.engine ≠ .halted →
      c = .reset ∨ ∃ words pa pb, c = .construct words pa pb ∧ r = .ok

/-- R89: no sequence of commands leaves HALTED or overwrites the record unless a RESET or a successful CONSTRUCT is
among them; either of these goes to READY with the record zero. -/
def Obligations.OnlyResetOrConstructLeavesHalted : Prop :=
  ∀ s : State, s.Inv → s.engine = .halted →
    (∀ (cs : List Command) (t : State) (rs : List Response),
      (∀ c ∈ cs, c ≠ .reset ∧ ∀ words pa pb, c = .construct words pa pb → rejection s.cfg words ≠ none) →
      commands cs s = .next (t, rs) → t = s) ∧
    (∃ t, command .reset s = .next (t, .ok) ∧ t.engine = .ready ∧ t.prog = s.prog ∧
      t.fcode = .none ∧ t.findex = 0 ∧ t.fword = 0) ∧
    ∀ (words : List Word) (pa pb : Bank) (t : State), command (.construct words pa pb) s = .next (t, .ok) →
      t.engine = .ready ∧ t.prog = words ∧ t.fcode = .none ∧ t.findex = 0 ∧ t.fword = 0

/-! ## Scans -/

/-- R68: in READY, SCAN is the step repeated, at least once, until PC is 0 or a fault ends it; in UNLOADED and HALTED no
step runs. -/
def Obligations.ScanIsRepeatedStep : Prop :=
  (∀ s : State, s.engine = .unloaded → command .scan s = .next (s, .notLoaded)) ∧
  (∀ s : State, s.engine = .halted → command .scan s = .next (s, .fault s.fcode s.findex s.fword)) ∧
  ∀ (s t : State), s.engine = .ready →
    (∀ k, command .scan s = .next (t, .done k) →
      1 ≤ k ∧ stepTimes k s = .next t ∧ t.pc = 0 ∧ t.engine = .ready ∧
      ∀ j, 0 < j → j < k → ∃ u : State, stepTimes j s = .next u ∧ u.pc ≠ 0 ∧ u.engine = .ready) ∧
    (∀ code i w, command .scan s = .next (t, .fault code i w) →
      t.engine = .halted ∧ t.fcode = code ∧ t.findex = i ∧ t.fword = w ∧
      ∃ k, stepTimes (k + 1) s = .next t ∧
        ∀ j, 0 < j → j ≤ k → ∃ u : State, stepTimes j s = .next u ∧ u.pc ≠ 0 ∧ u.engine = .ready)

/-- R69: every SCAN ends, by PC = 0 or by a fault, after at least one step and at most L - PC steps. -/
def Obligations.EveryScanEnds : Prop :=
  ∀ s : State, s.Inv → s.engine = .ready →
    ∃ t r k, command .scan s = .next (t, r) ∧ 1 ≤ k ∧ k ≤ s.prog.length - s.pc ∧ stepTimes k s = .next t ∧
      ((r = .done k ∧ t.pc = 0 ∧ t.engine = .ready) ∨ (r = .fault t.fcode t.findex t.fword ∧ t.engine = .halted))

/-- R105: the number of steps of a scan from PC = 0 that does not fault is KSCAN, and no index at or above KSCAN is ever
reached from PC = 0. -/
def Obligations.ScanLengthIsKscan : Prop :=
  (∀ (s t : State) (k : Nat), s.Inv → s.engine = .ready → s.pc = 0 → command .scan s = .next (t, .done k) →
    k = kscan s.prog) ∧
  ∀ (tr : Nat → State) (m : Nat), Run tr m → (tr 0).Inv → (tr 0).pc = 0 → (tr m).pc < kscan (tr 0).prog

/-- R106: under PER_INSTRUCTION, in a run of SCANs only, the instruction at index i executes in scan s with
MODE = (s * KSCAN + i) mod 2. -/
def Obligations.ScanParityIsFixedByKscan : Prop :=
  ∀ (sc : Nat → State) (steps : Nat → Nat) (n : Nat), ScanRun sc steps n → (sc 0).Inv → (sc 0).Fresh → (sc 0).pc = 0 →
    (sc 0).cfg.toggle = .perInstruction →
    ∀ j < n, ∀ i < kscan (sc 0).prog, ∃ u : State, stepTimes i (sc j) = .next u ∧ u.pc = i ∧
      u.engine = .ready ∧ u.mode = decide ((j * kscan (sc 0).prog + i) % 2 = 1)

/-- R107: under PER_INSTRUCTION with an even KSCAN and in a run of SCANs only, READ at every boundary sees bank A, which
only an OUT at an odd index writes: an address that no OUT at an odd index stores to reads as bank A's preset at every
boundary, whatever the OUTs at even indices store. -/
def Obligations.EvenScanHidesOutsAtEvenIndices : Prop :=
  ∀ (sc : Nat → State) (steps : Nat → Nat) (n a : Nat), ScanRun sc steps n → (sc 0).Inv → (sc 0).Fresh → (sc 0).pc = 0 →
    (sc 0).cfg.toggle = .perInstruction → kscan (sc 0).prog % 2 = 0 → LegalAddress (sc 0).cfg a →
    (∀ (i : Nat) (w : Word) (x : Argument), i % 2 = 1 → (sc 0).prog[i]? = some w → decodeWord w = .ok (.out (some x)) →
      x.addr.toNat ≠ a) →
    ∀ j ≤ n, (sc j).mode = false ∧
      command (.read a) (sc j) = .next (sc j, .value (Bank.read (sc 0).presetA a))

/-- R109: the stack is carried from scan to scan, so a program whose scan leaves more entries than it found ends, under
repeated SCANs, in a fault. -/
def Obligations.UnbalancedScanEventuallyFaults : Prop :=
  ∀ (s t : State) (k : Nat), s.Inv → s.engine = .ready → s.pc = 0 → command .scan s = .next (t, .done k) →
    s.stk.length < t.stk.length →
    ∃ (n : Nat) (u : State) (rs : List Response),
      commands (List.replicate n .scan) s = .next (u, rs) ∧ u.engine = .halted

/-! ## The invariant -/

/-- The invariant holds of every instance at power-on, with parameters in their ranges, and of the model's reset state.
The values of the elements that R99 leaves without one are the model's choice (log entry 3). -/
def Obligations.PowerOnSatisfiesTheInvariant : Prop :=
  (∀ c : Config, c.wf = true → (State.powerOn c).Inv) ∧ State.reset.Inv

/-- Every step keeps the invariant: the banks stay canonical and within their C cells, PC stays an index of the program,
SP stays at most SMAX, and the fault record names the fault exactly when the block is halted. -/
def Obligations.StepKeepsTheInvariant : Prop := ∀ s t : State, s.Inv → step s = .next t → t.Inv

/-- Every sequence of host commands keeps the invariant. -/
def Obligations.CommandsKeepTheInvariant : Prop :=
  ∀ (cs : List Command) (s t : State) (rs : List Response), s.Inv → commands cs s = .next (t, rs) → t.Inv

/-- The block is never stuck: from every state that meets the invariant, every sequence of host commands is answered in
full, one response to each (R40, R62, R69, R85). -/
def Obligations.NoCommandIsEverStuck : Prop :=
  ∀ (cs : List Command) (s : State), s.Inv →
    ∃ t rs, commands cs s = .next (t, rs) ∧ rs.length = cs.length
end

