-- ==== Sys2Proof/Laws/State.lean ====
section
/-! SUPPORT. One lemma per field per update of the state, each true by definition, so that no proof unfolds a record
update. -/

namespace Sys2Proof.Machine

variable (s : State)

/-! ## advance -/

@[simp] theorem State.advance_cfg : (s.advance).cfg = s.cfg := rfl
@[simp] theorem State.advance_engine : (s.advance).engine = s.engine := rfl
@[simp] theorem State.advance_prog : (s.advance).prog = s.prog := rfl
@[simp] theorem State.advance_pc : (s.advance).pc = (s.pc + 1) % s.progLen := rfl
@[simp] theorem State.advance_mode : (s.advance).mode = s.mode := rfl
@[simp] theorem State.advance_bankA : (s.advance).bankA = s.bankA := rfl
@[simp] theorem State.advance_bankB : (s.advance).bankB = s.bankB := rfl
@[simp] theorem State.advance_stk : (s.advance).stk = s.stk := rfl
@[simp] theorem State.advance_fcode : (s.advance).fcode = s.fcode := rfl
@[simp] theorem State.advance_findex : (s.advance).findex = s.findex := rfl
@[simp] theorem State.advance_fword : (s.advance).fword = s.fword := rfl
@[simp] theorem State.advance_presetA : (s.advance).presetA = s.presetA := rfl
@[simp] theorem State.advance_presetB : (s.advance).presetB = s.presetB := rfl

/-! ## toggleMode -/

@[simp] theorem State.toggleMode_cfg : (s.toggleMode).cfg = s.cfg := rfl
@[simp] theorem State.toggleMode_engine : (s.toggleMode).engine = s.engine := rfl
@[simp] theorem State.toggleMode_prog : (s.toggleMode).prog = s.prog := rfl
@[simp] theorem State.toggleMode_pc : (s.toggleMode).pc = s.pc := rfl
@[simp] theorem State.toggleMode_mode : (s.toggleMode).mode = s.nextMode := rfl
@[simp] theorem State.toggleMode_bankA : (s.toggleMode).bankA = s.bankA := rfl
@[simp] theorem State.toggleMode_bankB : (s.toggleMode).bankB = s.bankB := rfl
@[simp] theorem State.toggleMode_stk : (s.toggleMode).stk = s.stk := rfl
@[simp] theorem State.toggleMode_fcode : (s.toggleMode).fcode = s.fcode := rfl
@[simp] theorem State.toggleMode_findex : (s.toggleMode).findex = s.findex := rfl
@[simp] theorem State.toggleMode_fword : (s.toggleMode).fword = s.fword := rfl
@[simp] theorem State.toggleMode_presetA : (s.toggleMode).presetA = s.presetA := rfl
@[simp] theorem State.toggleMode_presetB : (s.toggleMode).presetB = s.presetB := rfl

/-! ## push -/

@[simp] theorem State.push_cfg (v : Bool) : (s.push v).cfg = s.cfg := rfl
@[simp] theorem State.push_engine (v : Bool) : (s.push v).engine = s.engine := rfl
@[simp] theorem State.push_prog (v : Bool) : (s.push v).prog = s.prog := rfl
@[simp] theorem State.push_pc (v : Bool) : (s.push v).pc = s.pc := rfl
@[simp] theorem State.push_mode (v : Bool) : (s.push v).mode = s.mode := rfl
@[simp] theorem State.push_bankA (v : Bool) : (s.push v).bankA = s.bankA := rfl
@[simp] theorem State.push_bankB (v : Bool) : (s.push v).bankB = s.bankB := rfl
@[simp] theorem State.push_stk (v : Bool) : (s.push v).stk = v :: s.stk := rfl
@[simp] theorem State.push_fcode (v : Bool) : (s.push v).fcode = s.fcode := rfl
@[simp] theorem State.push_findex (v : Bool) : (s.push v).findex = s.findex := rfl
@[simp] theorem State.push_fword (v : Bool) : (s.push v).fword = s.fword := rfl
@[simp] theorem State.push_presetA (v : Bool) : (s.push v).presetA = s.presetA := rfl
@[simp] theorem State.push_presetB (v : Bool) : (s.push v).presetB = s.presetB := rfl

/-! ## memWrite -/

@[simp] theorem State.memWrite_cfg (a : Nat) (v : Bool) : (s.memWrite a v).cfg = s.cfg := rfl
@[simp] theorem State.memWrite_engine (a : Nat) (v : Bool) : (s.memWrite a v).engine = s.engine := rfl
@[simp] theorem State.memWrite_prog (a : Nat) (v : Bool) : (s.memWrite a v).prog = s.prog := rfl
@[simp] theorem State.memWrite_pc (a : Nat) (v : Bool) : (s.memWrite a v).pc = s.pc := rfl
@[simp] theorem State.memWrite_mode (a : Nat) (v : Bool) : (s.memWrite a v).mode = s.mode := rfl
@[simp] theorem State.memWrite_bankA (a : Nat) (v : Bool) : (s.memWrite a v).bankA = if s.mode then Bank.write s.bankA a v else s.bankA := rfl
@[simp] theorem State.memWrite_bankB (a : Nat) (v : Bool) : (s.memWrite a v).bankB = if s.mode then s.bankB else Bank.write s.bankB a v := rfl
@[simp] theorem State.memWrite_stk (a : Nat) (v : Bool) : (s.memWrite a v).stk = s.stk := rfl
@[simp] theorem State.memWrite_fcode (a : Nat) (v : Bool) : (s.memWrite a v).fcode = s.fcode := rfl
@[simp] theorem State.memWrite_findex (a : Nat) (v : Bool) : (s.memWrite a v).findex = s.findex := rfl
@[simp] theorem State.memWrite_fword (a : Nat) (v : Bool) : (s.memWrite a v).fword = s.fword := rfl
@[simp] theorem State.memWrite_presetA (a : Nat) (v : Bool) : (s.memWrite a v).presetA = s.presetA := rfl
@[simp] theorem State.memWrite_presetB (a : Nat) (v : Bool) : (s.memWrite a v).presetB = s.presetB := rfl

/-! ## setPc -/

@[simp] theorem State.setPc_cfg (target : Nat) : (s.setPc target).cfg = s.cfg := rfl
@[simp] theorem State.setPc_engine (target : Nat) : (s.setPc target).engine = s.engine := rfl
@[simp] theorem State.setPc_prog (target : Nat) : (s.setPc target).prog = s.prog := rfl
@[simp] theorem State.setPc_pc (target : Nat) : (s.setPc target).pc = target := rfl
@[simp] theorem State.setPc_mode (target : Nat) : (s.setPc target).mode = s.mode := rfl
@[simp] theorem State.setPc_bankA (target : Nat) : (s.setPc target).bankA = s.bankA := rfl
@[simp] theorem State.setPc_bankB (target : Nat) : (s.setPc target).bankB = s.bankB := rfl
@[simp] theorem State.setPc_stk (target : Nat) : (s.setPc target).stk = s.stk := rfl
@[simp] theorem State.setPc_fcode (target : Nat) : (s.setPc target).fcode = s.fcode := rfl
@[simp] theorem State.setPc_findex (target : Nat) : (s.setPc target).findex = s.findex := rfl
@[simp] theorem State.setPc_fword (target : Nat) : (s.setPc target).fword = s.fword := rfl
@[simp] theorem State.setPc_presetA (target : Nat) : (s.setPc target).presetA = s.presetA := rfl
@[simp] theorem State.setPc_presetB (target : Nat) : (s.setPc target).presetB = s.presetB := rfl

/-! ## takeFault -/

@[simp] theorem State.takeFault_cfg (code : FaultCode) (ipc : Nat) (w : Word) : (s.takeFault code ipc w).cfg = s.cfg := rfl
@[simp] theorem State.takeFault_engine (code : FaultCode) (ipc : Nat) (w : Word) : (s.takeFault code ipc w).engine = .halted := rfl
@[simp] theorem State.takeFault_prog (code : FaultCode) (ipc : Nat) (w : Word) : (s.takeFault code ipc w).prog = s.prog := rfl
@[simp] theorem State.takeFault_pc (code : FaultCode) (ipc : Nat) (w : Word) : (s.takeFault code ipc w).pc = s.pc := rfl
@[simp] theorem State.takeFault_mode (code : FaultCode) (ipc : Nat) (w : Word) : (s.takeFault code ipc w).mode = s.mode := rfl
@[simp] theorem State.takeFault_bankA (code : FaultCode) (ipc : Nat) (w : Word) : (s.takeFault code ipc w).bankA = s.bankA := rfl
@[simp] theorem State.takeFault_bankB (code : FaultCode) (ipc : Nat) (w : Word) : (s.takeFault code ipc w).bankB = s.bankB := rfl
@[simp] theorem State.takeFault_stk (code : FaultCode) (ipc : Nat) (w : Word) : (s.takeFault code ipc w).stk = s.stk := rfl
@[simp] theorem State.takeFault_fcode (code : FaultCode) (ipc : Nat) (w : Word) : (s.takeFault code ipc w).fcode = code := rfl
@[simp] theorem State.takeFault_findex (code : FaultCode) (ipc : Nat) (w : Word) : (s.takeFault code ipc w).findex = ipc := rfl
@[simp] theorem State.takeFault_fword (code : FaultCode) (ipc : Nat) (w : Word) : (s.takeFault code ipc w).fword = w := rfl
@[simp] theorem State.takeFault_presetA (code : FaultCode) (ipc : Nat) (w : Word) : (s.takeFault code ipc w).presetA = s.presetA := rfl
@[simp] theorem State.takeFault_presetB (code : FaultCode) (ipc : Nat) (w : Word) : (s.takeFault code ipc w).presetB = s.presetB := rfl

/-! ## initialise -/

@[simp] theorem State.initialise_cfg (words : List Word) (pa pb : Bank) : (s.initialise words pa pb).cfg = s.cfg := rfl
@[simp] theorem State.initialise_engine (words : List Word) (pa pb : Bank) : (s.initialise words pa pb).engine = .ready := rfl
@[simp] theorem State.initialise_prog (words : List Word) (pa pb : Bank) : (s.initialise words pa pb).prog = words := rfl
@[simp] theorem State.initialise_pc (words : List Word) (pa pb : Bank) : (s.initialise words pa pb).pc = 0 := rfl
@[simp] theorem State.initialise_mode (words : List Word) (pa pb : Bank) : (s.initialise words pa pb).mode = false := rfl
@[simp] theorem State.initialise_bankA (words : List Word) (pa pb : Bank) : (s.initialise words pa pb).bankA = pa := rfl
@[simp] theorem State.initialise_bankB (words : List Word) (pa pb : Bank) : (s.initialise words pa pb).bankB = pb := rfl
@[simp] theorem State.initialise_stk (words : List Word) (pa pb : Bank) : (s.initialise words pa pb).stk = [] := rfl
@[simp] theorem State.initialise_fcode (words : List Word) (pa pb : Bank) : (s.initialise words pa pb).fcode = .none := rfl
@[simp] theorem State.initialise_findex (words : List Word) (pa pb : Bank) : (s.initialise words pa pb).findex = 0 := rfl
@[simp] theorem State.initialise_fword (words : List Word) (pa pb : Bank) : (s.initialise words pa pb).fword = 0 := rfl
@[simp] theorem State.initialise_presetA (words : List Word) (pa pb : Bank) : (s.initialise words pa pb).presetA = pa := rfl
@[simp] theorem State.initialise_presetB (words : List Word) (pa pb : Bank) : (s.initialise words pa pb).presetB = pb := rfl

/-! ## completed -/

@[simp] theorem State.completed_cfg (pc : Nat) (stk : List Bool) : (s.completed pc stk).cfg = s.cfg := rfl
@[simp] theorem State.completed_engine (pc : Nat) (stk : List Bool) : (s.completed pc stk).engine = s.engine := rfl
@[simp] theorem State.completed_prog (pc : Nat) (stk : List Bool) : (s.completed pc stk).prog = s.prog := rfl
@[simp] theorem State.completed_pc (pc : Nat) (stk : List Bool) : (s.completed pc stk).pc = pc := rfl
@[simp] theorem State.completed_mode (pc : Nat) (stk : List Bool) : (s.completed pc stk).mode = s.modeAfter pc := rfl
@[simp] theorem State.completed_bankA (pc : Nat) (stk : List Bool) : (s.completed pc stk).bankA = s.bankA := rfl
@[simp] theorem State.completed_bankB (pc : Nat) (stk : List Bool) : (s.completed pc stk).bankB = s.bankB := rfl
@[simp] theorem State.completed_stk (pc : Nat) (stk : List Bool) : (s.completed pc stk).stk = stk := rfl
@[simp] theorem State.completed_fcode (pc : Nat) (stk : List Bool) : (s.completed pc stk).fcode = s.fcode := rfl
@[simp] theorem State.completed_findex (pc : Nat) (stk : List Bool) : (s.completed pc stk).findex = s.findex := rfl
@[simp] theorem State.completed_fword (pc : Nat) (stk : List Bool) : (s.completed pc stk).fword = s.fword := rfl
@[simp] theorem State.completed_presetA (pc : Nat) (stk : List Bool) : (s.completed pc stk).presetA = s.presetA := rfl
@[simp] theorem State.completed_presetB (pc : Nat) (stk : List Bool) : (s.completed pc stk).presetB = s.presetB := rfl

/-! ## faulted -/

@[simp] theorem State.faulted_cfg (code : FaultCode) (w : Word) : (s.faulted code w).cfg = s.cfg := rfl
@[simp] theorem State.faulted_engine (code : FaultCode) (w : Word) : (s.faulted code w).engine = .halted := rfl
@[simp] theorem State.faulted_prog (code : FaultCode) (w : Word) : (s.faulted code w).prog = s.prog := rfl
@[simp] theorem State.faulted_pc (code : FaultCode) (w : Word) : (s.faulted code w).pc = s.nextPc := rfl
@[simp] theorem State.faulted_mode (code : FaultCode) (w : Word) : (s.faulted code w).mode = s.mode := rfl
@[simp] theorem State.faulted_bankA (code : FaultCode) (w : Word) : (s.faulted code w).bankA = s.bankA := rfl
@[simp] theorem State.faulted_bankB (code : FaultCode) (w : Word) : (s.faulted code w).bankB = s.bankB := rfl
@[simp] theorem State.faulted_stk (code : FaultCode) (w : Word) : (s.faulted code w).stk = s.stk := rfl
@[simp] theorem State.faulted_fcode (code : FaultCode) (w : Word) : (s.faulted code w).fcode = code := rfl
@[simp] theorem State.faulted_findex (code : FaultCode) (w : Word) : (s.faulted code w).findex = s.pc := rfl
@[simp] theorem State.faulted_fword (code : FaultCode) (w : Word) : (s.faulted code w).fword = w := rfl
@[simp] theorem State.faulted_presetA (code : FaultCode) (w : Word) : (s.faulted code w).presetA = s.presetA := rfl
@[simp] theorem State.faulted_presetB (code : FaultCode) (w : Word) : (s.faulted code w).presetB = s.presetB := rfl

/-! ## Views -/

theorem State.sp_eq : s.sp = s.stk.length := rfl

theorem State.progLen_eq : s.progLen = s.prog.length := rfl

theorem State.fetch_eq : s.fetch = s.prog[s.pc]? := rfl

theorem State.restart_eq : s.restart = s.initialise s.prog s.presetA s.presetB := rfl

theorem State.memRead_eq (a : Nat) : s.memRead a = Bank.read s.readBank a := by
  unfold State.memRead State.readBank; split <;> rfl

theorem State.nextPc_eq : s.nextPc = (s.pc + 1) % s.prog.length := rfl

end Sys2Proof.Machine
end

