-- ==== Sys2Proof/Laws/Memory.lean ====
section
/-! SUPPORT. The laws of the banks: a read after a write, and that every memory operation keeps the canonical form and the
C cells of a bank. -/

namespace Sys2Proof.Machine

@[simp] theorem Bank.read_nil (a : Nat) : Bank.read [] a = false := rfl

@[simp] theorem Bank.wf_nil : Bank.wf [] = true := rfl

theorem Bank.wf_cons {k : Nat} {v : Bool} {rest : Bank} :
    Bank.wf ((k, v) :: rest) = true ↔ v = true ∧ (∀ c ∈ rest, k < c.1) ∧ Bank.wf rest = true := by
  simp [Bank.wf, Bank.unlisted, and_assoc]

/-- An address no entry lists reads as the unlisted value. -/
theorem Bank.read_unlisted {b : Bank} {a : Nat} (h : ∀ c ∈ b, c.1 ≠ a) : Bank.read b a = false := by
  induction b with
  | nil => rfl
  | cons c rest ih =>
    obtain ⟨k, v⟩ := c
    have hk : k ≠ a := h (k, v) (by simp)
    rw [Bank.read, if_neg hk]
    exact ih fun c hc => h c (by simp [hc])

/-- A write lists no address that was not listed, but its own. -/
theorem Bank.write_addresses {b : Bank} {a : Nat} {v : Bool} {c : Nat × Bool} (h : c ∈ Bank.write b a v) :
    c ∈ b ∨ c = (a, v) := by
  induction b with
  | nil =>
    by_cases hv : v = Bank.unlisted <;> simp_all [Bank.write]
  | cons e rest ih =>
    obtain ⟨k, w⟩ := e
    unfold Bank.write at h
    split at h
    · rcases List.mem_cons.1 h with h | h
      · exact .inl (by simp [h])
      · exact (ih h).imp (fun h => by simp [h]) id
    · split at h
      · split at h
        · exact .inl (by simp [h])
        · rcases List.mem_cons.1 h with h | h
          · exact .inr h
          · exact .inl (by simp [h])
      · split at h
        · exact .inl h
        · rcases List.mem_cons.1 h with h | h
          · exact .inr h
          · exact .inl h

/-- A write keeps the canonical form. -/
theorem Bank.write_wf {b : Bank} (hb : Bank.wf b = true) (a : Nat) (v : Bool) : Bank.wf (Bank.write b a v) = true := by
  induction b with
  | nil => cases v <;> rfl
  | cons e rest ih =>
    obtain ⟨k, w⟩ := e
    obtain ⟨hw, hlt, hr⟩ := Bank.wf_cons.1 hb
    unfold Bank.write
    split
    · refine Bank.wf_cons.2 ⟨hw, fun c hc => ?_, ih hr⟩
      rcases Bank.write_addresses hc with h | h
      · exact hlt c h
      · subst h; assumption
    · split
      · next hk =>
        subst hk
        cases v
        · exact hr
        · exact Bank.wf_cons.2 ⟨rfl, hlt, hr⟩
      · cases v
        · exact hb
        · refine Bank.wf_cons.2 ⟨rfl, fun c hc => ?_, hb⟩
          rcases List.mem_cons.1 hc with h | h
          · subst h; show a < k; omega
          · have := hlt c h; omega

/-- A read after a write to the same cell gives the bit written. -/
@[simp] theorem Bank.read_write_same {b : Bank} (hb : Bank.wf b = true) (a : Nat) (v : Bool) :
    Bank.read (Bank.write b a v) a = v := by
  induction b with
  | nil => cases v <;> simp [Bank.write, Bank.read, Bank.unlisted]
  | cons e rest ih =>
    obtain ⟨k, w⟩ := e
    obtain ⟨-, hlt, hr⟩ := Bank.wf_cons.1 hb
    unfold Bank.write
    split
    · rw [Bank.read, if_neg (by omega)]; exact ih hr
    · split
      · next hk =>
        subst hk
        cases v
        · exact Bank.read_unlisted fun c hc => by have := hlt c hc; omega
        · simp [Bank.read, Bank.unlisted]
      · cases v
        · refine Bank.read_unlisted fun c hc => ?_
          rcases List.mem_cons.1 hc with h | h
          · subst h; assumption
          · have := hlt c h; omega
        · simp [Bank.read, Bank.unlisted]

/-- A write leaves every other cell alone. -/
@[simp] theorem Bank.read_write_other (b : Bank) {a x : Nat} (h : x ≠ a) (v : Bool) :
    Bank.read (Bank.write b a v) x = Bank.read b x := by
  induction b with
  | nil => cases v <;> simp [Bank.write, Bank.read, Bank.unlisted, h.symm]
  | cons e rest ih =>
    obtain ⟨k, w⟩ := e
    unfold Bank.write
    split
    · simp only [Bank.read]; split
      · rfl
      · exact ih
    · split
      · next hk =>
        subst hk
        split <;> simp [Bank.read, h.symm]
      · split <;> simp [Bank.read, h.symm]

theorem Bank.read_write {b : Bank} (hb : Bank.wf b = true) (a x : Nat) (v : Bool) :
    Bank.read (Bank.write b a v) x = if x = a then v else Bank.read b x := by
  split
  · next h => subst h; exact Bank.read_write_same hb x v
  · next h => exact Bank.read_write_other b h v

theorem Bank.within_iff {b : Bank} {c : Nat} : Bank.within b c = true ↔ ∀ e ∈ b, e.1 < c := by
  simp [Bank.within]

/-- A write to one of the C cells stays within them. -/
theorem Bank.write_within {b : Bank} {c a : Nat} (hb : Bank.within b c = true) (ha : a < c) (v : Bool) :
    Bank.within (Bank.write b a v) c = true := by
  rw [Bank.within_iff] at *
  intro e he
  rcases Bank.write_addresses he with h | h
  · exact hb e h
  · subst h; exact ha

/-- Two canonical banks that read the same everywhere are the same data. -/
theorem Bank.ext_read {b c : Bank} (hb : Bank.wf b = true) (hc : Bank.wf c = true)
    (h : ∀ a, Bank.read b a = Bank.read c a) : b = c := by
  induction b generalizing c with
  | nil =>
    cases c with
    | nil => rfl
    | cons e rest =>
      obtain ⟨k, v⟩ := e
      obtain ⟨hv, -, -⟩ := Bank.wf_cons.1 hc
      have := h k
      rw [Bank.read_nil, Bank.read, if_pos rfl, hv] at this
      cases this
  | cons e rest ih =>
    obtain ⟨k, v⟩ := e
    obtain ⟨hv, hlt, hr⟩ := Bank.wf_cons.1 hb
    cases c with
    | nil =>
      have := h k
      rw [Bank.read_nil, Bank.read, if_pos rfl, hv] at this
      cases this
    | cons e' rest' =>
      obtain ⟨k', v'⟩ := e'
      obtain ⟨hv', hlt', hr'⟩ := Bank.wf_cons.1 hc
      subst hv hv'
      have hk : k = k' := by
        rcases Nat.lt_trichotomy k k' with hlt2 | heq | hgt
        · have h1 := h k
          rw [Bank.read, if_pos rfl, Bank.read, if_neg (by omega),
            Bank.read_unlisted fun c hc => by have := hlt' c hc; omega] at h1
          cases h1
        · exact heq
        · have h1 := h k'
          rw [Bank.read, if_neg (by omega),
            Bank.read_unlisted fun c hc => by have := hlt c hc; omega, Bank.read, if_pos rfl] at h1
          cases h1
      subst hk
      congr 1
      refine ih hr hr' fun a => ?_
      by_cases ha : k = a
      · subst ha
        rw [Bank.read_unlisted fun c hc => by have := hlt c hc; omega,
          Bank.read_unlisted fun c hc => by have := hlt' c hc; omega]
      · have h1 := h a
        rwa [Bank.read, if_neg ha, Bank.read, if_neg ha] at h1

/-- The bank a preset describes is in canonical form. -/
theorem Bank.ofPreset_wf (c : Nat) (b : Bank) : Bank.wf (Bank.ofPreset c b) = true := by
  induction b with
  | nil => rfl
  | cons e rest ih =>
    obtain ⟨k, v⟩ := e
    unfold Bank.ofPreset
    split
    · exact Bank.write_wf ih k v
    · exact ih

/-- The bank a preset describes has C cells. -/
theorem Bank.ofPreset_within (c : Nat) (b : Bank) : Bank.within (Bank.ofPreset c b) c = true := by
  induction b with
  | nil => rfl
  | cons e rest ih =>
    obtain ⟨k, v⟩ := e
    unfold Bank.ofPreset
    split
    · exact Bank.write_within ih ‹_› v
    · exact ih

/-- The bank a preset describes holds, in each of its cells, what the preset gives that cell. -/
theorem Bank.read_ofPreset (c : Nat) (b : Bank) (a : Nat) :
    Bank.read (Bank.ofPreset c b) a = if a < c then Bank.read b a else false := by
  induction b with
  | nil => simp [Bank.ofPreset]
  | cons e rest ih =>
    obtain ⟨k, v⟩ := e
    unfold Bank.ofPreset
    split
    · next hk =>
      rw [Bank.read_write (Bank.ofPreset_wf c rest), ih, Bank.read]
      by_cases hka : k = a
      · subst hka; simp [hk]
      · simp [hka, Ne.symm hka]
    · next hk =>
      rw [ih, Bank.read]
      by_cases hka : k = a
      · subst hka; simp [hk]
      · simp [hka]

/-- A preset that is canonical and within the bank describes itself. -/
theorem Bank.ofPreset_of_wf {c : Nat} {b : Bank} (hb : Bank.wf b = true) (hw : Bank.within b c = true) :
    Bank.ofPreset c b = b := by
  refine Bank.ext_read (Bank.ofPreset_wf c b) hb fun a => ?_
  rw [Bank.read_ofPreset]
  split
  · rfl
  · exact (Bank.read_unlisted fun e he => by have := Bank.within_iff.1 hw e he; omega).symm

/-- The memory laws at the level of the state: canonical form. -/
theorem memory_wf_iff {s : State} : Memory.wf s = true ↔
    Bank.wf s.bankA = true ∧ Bank.wf s.bankB = true ∧ Bank.wf s.presetA = true ∧ Bank.wf s.presetB = true := by
  simp [Memory.wf, and_assoc]

/-- MemWrite keeps the canonical form. -/
theorem memWrite_wf {s : State} (h : Memory.wf s = true) (a : Nat) (v : Bool) : Memory.wf (s.memWrite a v) = true := by
  obtain ⟨h1, h2, h3, h4⟩ := memory_wf_iff.1 h
  refine memory_wf_iff.2 ⟨?_, ?_, h3, h4⟩
  · simp only [State.memWrite_bankA]; split
    · exact Bank.write_wf h1 a v
    · exact h1
  · simp only [State.memWrite_bankB]; split
    · exact h2
    · exact Bank.write_wf h2 a v

/-- The state CONSTRUCT leaves is in canonical form. -/
theorem initialise_wf {s : State} {words : List Word} {pa pb : Bank} (ha : Bank.wf pa = true) (hb : Bank.wf pb = true) :
    Memory.wf (s.initialise words pa pb) = true :=
  memory_wf_iff.2 ⟨ha, hb, ha, hb⟩

theorem reset_memory_wf : Memory.wf State.reset = true := rfl

end Sys2Proof.Machine
end

