-- ==== Sys2Proof/Laws/Steps.lean ====
section
/-! SUPPORT. What a step can do, said once: one lemma per shared operation, one per instruction body, and `exec_cases` and
`step_cases`, from which the frames and invariants follow without unfolding the machine. -/

namespace Sys2Proof.Machine

/-! ## Checks -/

theorem inBounds_iff {c : Config} {a : Nat} : inBounds c a = true ↔ LegalAddress c a := by
  unfold inBounds LegalAddress
  cases h : c.bounds <;> simp
  omega

theorem legal_lt_cells {c : Config} {a : Nat} (h : LegalAddress c a) : a < cellCount c := by
  obtain ⟨h1, h2⟩ := h
  unfold cellCount
  cases hb : c.bounds
  · show a < c.n + 1
    omega
  · exact h2 hb

theorem nextMode_eq (s : State) : s.nextMode = s.modeAfter s.pc := by
  unfold State.nextMode State.modeAfter
  cases s.cfg.toggle <;> simp

/-- `withCell` continues exactly at a legal address, and raises nothing but ARG_SHAPE and ADDR_BOUNDS itself. -/
theorem withCell_ok {arg : Option Argument} {s u : State} {rest : Nat → Body} (h : withCell arg s rest = .ok u) :
    ∃ a, arg = some a ∧ LegalAddress s.cfg a.addr.toNat ∧ rest a.addr.toNat = .ok u := by
  unfold withCell at h
  cases arg with
  | none => cases h
  | some a =>
    dsimp only at h
    split at h
    · exact ⟨a, rfl, inBounds_iff.1 ‹_›, h⟩
    · cases h

/-- At a legal address `withCell` is the rest of the body. -/
theorem withCell_legal {s : State} {a : Argument} (h : LegalAddress s.cfg a.addr.toNat) (rest : Nat → Body) :
    withCell (some a) s rest = rest a.addr.toNat :=
  if_pos (inBounds_iff.2 h)

/-- At an address outside the bank `withCell` raises ADDR_BOUNDS. -/
theorem withCell_illegal {s : State} {a : Argument} (h : ¬ LegalAddress s.cfg a.addr.toNat) (rest : Nat → Body) :
    withCell (some a) s rest = .error .addrBounds :=
  if_neg fun hb => h (inBounds_iff.1 hb)

theorem withCell_error {arg : Option Argument} {s : State} {rest : Nat → Body} {code : FaultCode}
    (h : withCell arg s rest = .error code) :
    code = .argShape ∨ code = .addrBounds ∨ ∃ a, arg = some a ∧ rest a.addr.toNat = .error code := by
  unfold withCell at h
  cases arg with
  | none => cases h; exact .inl rfl
  | some a =>
    dsimp only at h
    split at h
    · exact .inr (.inr ⟨a, rfl, h⟩)
    · cases h; exact .inr (.inl rfl)

theorem withNoArg_ok {arg : Option Argument} {u : State} {rest : Body} (h : withNoArg arg rest = .ok u) :
    arg = none ∧ rest = .ok u := by
  cases arg with
  | none => exact ⟨rfl, h⟩
  | some a => cases h

theorem withNoArg_error {arg : Option Argument} {rest : Body} {code : FaultCode}
    (h : withNoArg arg rest = .error code) : code = .argShape ∨ rest = .error code := by
  cases arg with
  | none => exact .inr h
  | some a => cases h; exact .inl rfl

theorem withDepth_ok {d : Bool} {u : State} {rest : Body} (h : withDepth d rest = .ok u) : d = true ∧ rest = .ok u := by
  cases d with
  | true => exact ⟨rfl, h⟩
  | false => cases h

theorem withDepth_error {d : Bool} {rest : Body} {code : FaultCode} (h : withDepth d rest = .error code) :
    code = .stackDepth ∨ rest = .error code := by
  cases d with
  | true => exact .inr h
  | false => cases h; exact .inl rfl

theorem withRoom_ok {s u : State} {rest : Body} (h : withRoom s rest = .ok u) : s.sp ≠ s.cfg.smax ∧ rest = .ok u := by
  unfold withRoom at h
  split at h
  · cases h
  · exact ⟨‹_›, h⟩

theorem withRoom_error {s : State} {rest : Body} {code : FaultCode} (h : withRoom s rest = .error code) :
    code = .stackOverflow ∨ rest = .error code := by
  unfold withRoom at h
  split at h
  · cases h; exact .inl rfl
  · exact .inr h

theorem withPop_ok {s u : State} {rest : Bool → State → Body} (h : withPop s rest = .ok u) :
    ∃ v below, s.stk = v :: below ∧ rest v { s with stk := below } = .ok u := by
  unfold withPop State.pop at h
  cases hs : s.stk with
  | nil => rw [hs] at h; cases h
  | cons v below => rw [hs] at h; exact ⟨v, below, rfl, h⟩

theorem withPop_error {s : State} {rest : Bool → State → Body} {code : FaultCode} (h : withPop s rest = .error code) :
    code = .stackDepth ∨ ∃ v t, rest v t = .error code := by
  unfold withPop State.pop at h
  cases hs : s.stk with
  | nil => rw [hs] at h; cases h; exact .inl rfl
  | cons v below => rw [hs] at h; exact .inr ⟨v, _, h⟩

/-! ## Bodies -/

theorem loadCell_ok {f : Bool → Bool} {arg : Option Argument} {s u : State} (h : loadCell f arg s = .ok u) :
    ∃ a, arg = some a ∧ LegalAddress s.cfg a.addr.toNat ∧ s.sp ≠ s.cfg.smax ∧
      u = s.push (f (s.memRead a.addr.toNat)) := by
  obtain ⟨a, rfl, hl, h⟩ := withCell_ok h
  obtain ⟨hr, h⟩ := withRoom_ok h
  cases h
  exact ⟨a, rfl, hl, hr, rfl⟩

theorem storeCell_ok {arg : Option Argument} {s u : State} (h : storeCell arg s = .ok u) :
    ∃ a v, arg = some a ∧ LegalAddress s.cfg a.addr.toNat ∧ s.stk = [v] ∧
      u = ({ s with stk := [] } : State).memWrite a.addr.toNat v := by
  obtain ⟨a, rfl, hl, h⟩ := withCell_ok h
  obtain ⟨hd, h⟩ := withDepth_ok h
  obtain ⟨v, below, hs, h⟩ := withPop_ok h
  have hb : below = [] := by
    have hd := of_decide_eq_true hd
    rw [State.sp_eq, hs] at hd
    exact List.length_eq_zero_iff.1 (by simpa using hd)
  subst hb
  cases h
  exact ⟨a, v, rfl, hl, hs, rfl⟩

theorem combineCell_ok {f : Bool → Bool → Bool} {arg : Option Argument} {s u : State}
    (h : combineCell f arg s = .ok u) :
    ∃ a v below, arg = some a ∧ LegalAddress s.cfg a.addr.toNat ∧ s.stk = v :: below ∧
      u = { s with stk := f v (s.memRead a.addr.toNat) :: below } := by
  obtain ⟨a, rfl, hl, h⟩ := withCell_ok h
  obtain ⟨-, h⟩ := withDepth_ok h
  obtain ⟨v, below, hs, h⟩ := withPop_ok h
  cases h
  exact ⟨a, v, below, rfl, hl, hs, rfl⟩

theorem mergeTop_ok {f : Bool → Bool → Bool} {arg : Option Argument} {s u : State} (h : mergeTop f arg s = .ok u) :
    ∃ v1 v2 below, arg = none ∧ s.stk = v1 :: v2 :: below ∧ u = { s with stk := f v1 v2 :: below } := by
  obtain ⟨rfl, h⟩ := withNoArg_ok h
  obtain ⟨-, h⟩ := withDepth_ok h
  obtain ⟨v1, below1, hs1, h⟩ := withPop_ok h
  obtain ⟨v2, below2, hs2, h⟩ := withPop_ok h
  dsimp only at hs2
  subst hs2
  cases h
  exact ⟨v1, v2, below2, rfl, hs1, rfl⟩

theorem endBody_ok {arg : Option Argument} {s u : State} (h : endBody arg s = .ok u) :
    arg = none ∧ u = s.setPc 0 := by
  obtain ⟨rfl, h⟩ := withNoArg_ok h
  cases h
  exact ⟨rfl, rfl⟩

/-- No body raises NONE (R84). -/
theorem body_error_ne_none {code : FaultCode} {f : Bool → Bool} {g : Bool → Bool → Bool} {arg : Option Argument}
    {s : State} (h : loadCell f arg s = .error code ∨ storeCell arg s = .error code ∨
      combineCell g arg s = .error code ∨ mergeTop g arg s = .error code ∨ endBody arg s = .error code) :
    code ≠ .none := by
  rcases h with h | h | h | h | h
  · obtain rfl | rfl | ⟨a, -, h⟩ := withCell_error h
    · simp
    · simp
    · obtain rfl | h := withRoom_error h
      · simp
      · cases h
  · obtain rfl | rfl | ⟨a, -, h⟩ := withCell_error h
    · simp
    · simp
    · obtain rfl | h := withDepth_error h
      · simp
      · obtain rfl | ⟨v, t, h⟩ := withPop_error h
        · simp
        · cases h
  · obtain rfl | rfl | ⟨a, -, h⟩ := withCell_error h
    · simp
    · simp
    · obtain rfl | h := withDepth_error h
      · simp
      · obtain rfl | ⟨v, t, h⟩ := withPop_error h
        · simp
        · cases h
  · obtain rfl | h := withNoArg_error h
    · simp
    · obtain rfl | h := withDepth_error h
      · simp
      · obtain rfl | ⟨v, t, h⟩ := withPop_error h
        · simp
        · obtain rfl | ⟨v', t', h⟩ := withPop_error h
          · simp
          · cases h
  · obtain rfl | h := withNoArg_error h
    · simp
    · cases h

/-! ## The step body -/

theorem takeFault_advance (s : State) (code : FaultCode) (w : Word) :
    s.advance.takeFault code s.pc w = s.faulted code w := rfl

/-- Everything the step body can do when it answers a next state. -/
theorem stepBody_cases {s t : State} {execute : State → Body} (h : s.stepBody execute = .next t) :
    ∃ w, s.prog[s.pc]? = some w ∧
      ((∃ u, execute s.advance = .ok u ∧ t = u.toggleMode) ∨
        ∃ code, execute s.advance = .error code ∧ t = s.faulted code w) := by
  unfold State.stepBody State.fetch at h
  cases hw : s.prog[s.pc]? with
  | none => rw [hw] at h; cases h
  | some w =>
    rw [hw] at h
    dsimp only at h
    refine ⟨w, rfl, ?_⟩
    cases he : execute s.advance with
    | ok u => rw [he] at h; cases h; exact .inl ⟨u, rfl, rfl⟩
    | error code => rw [he] at h; cases h; exact .inr ⟨code, rfl, rfl⟩

/-- Where the word at PC exists, the step body answers a next state. -/
theorem stepBody_next {s : State} {w : Word} (h : s.prog[s.pc]? = some w) (execute : State → Body) :
    ∃ t, s.stepBody execute = .next t := by
  unfold State.stepBody State.fetch
  rw [h]
  dsimp only
  cases execute s.advance <;> exact ⟨_, rfl⟩

/-- Where the body completes, the step body answers its state with MODE updated. -/
theorem stepBody_ok {s u : State} {w : Word} {execute : State → Body} (h : s.prog[s.pc]? = some w)
    (he : execute s.advance = .ok u) : s.stepBody execute = .next u.toggleMode := by
  unfold State.stepBody State.fetch
  rw [h]
  dsimp only
  rw [he]

/-- Where the body raises a fault, the step body answers the faulted state. -/
theorem stepBody_error {s : State} {w : Word} {execute : State → Body} {code : FaultCode}
    (h : s.prog[s.pc]? = some w) (he : execute s.advance = .error code) :
    s.stepBody execute = .next (s.faulted code w) := by
  unfold State.stepBody State.fetch
  rw [h]
  dsimp only
  rw [he]
  rfl

/-- A state with the PC advanced, the stack replaced and MODE updated is the completed state of the statements. -/
theorem toggle_advance_stk (s : State) (stk : List Bool) :
    ({ s.advance with stk := stk } : State).toggleMode = s.completed s.nextPc stk := by
  unfold State.toggleMode
  rw [nextMode_eq]
  rfl

theorem toggle_advance_zero (s : State) : (s.advance.setPc 0).toggleMode = s.completed 0 s.stk := by
  unfold State.toggleMode
  rw [nextMode_eq]
  rfl

/-- The state OUT leaves when it completes (R76). -/
def State.stored (s : State) (a : Nat) (v : Bool) : State :=
  { s.completed s.nextPc [] with
    bankA := if s.mode then Bank.write s.bankA a v else s.bankA
    bankB := if s.mode then s.bankB else Bank.write s.bankB a v }

theorem toggle_advance_store (s : State) (a : Nat) (v : Bool) :
    (({ s.advance with stk := [] } : State).memWrite a v).toggleMode = s.stored a v := by
  unfold State.toggleMode
  rw [nextMode_eq]
  rfl

/-! ## exec and step -/

/-- An instruction that completes, by the shape of its effect. -/
inductive Completes (i : Instr) (s t : State) : Prop where
  /-- END: PC goes to 0. -/
  | atEnd (hi : i = .endScan none) (ht : t = s.completed 0 s.stk)
  /-- OUT: the one value goes to a cell of the write bank. -/
  | store (a : Argument) (v : Bool) (hi : i = .out (some a)) (hl : LegalAddress s.cfg a.addr.toNat)
      (hs : s.stk = [v]) (ht : t = s.stored a.addr.toNat v)
  /-- The others: the popped entries are replaced by one new one. -/
  | value (v : Bool) (popped below : List Bool) (hi : i ≠ .endScan none) (hout : ∀ arg, i ≠ .out arg)
      (hs : s.stk = popped ++ below) (hpop : popped.length = i.pops) (hpush : i.pushes = 1)
      (hroom : i.pops = 0 → s.sp ≠ s.cfg.smax) (ht : t = s.completed s.nextPc (v :: below))

/-- Everything an instruction can do when it answers a next state: it takes a fault, or it completes. -/
theorem exec_cases {i : Instr} {s t : State} (h : exec i s = .next t) :
    ∃ w, s.prog[s.pc]? = some w ∧
      ((∃ code, code ≠ .none ∧ t = s.faulted code w) ∨ Completes i s t) := by
  cases i with
  | endScan arg =>
    obtain ⟨w, hw, ⟨u, hu, rfl⟩ | ⟨code, hc, rfl⟩⟩ := stepBody_cases h
    · obtain ⟨rfl, rfl⟩ := endBody_ok hu
      exact ⟨w, hw, .inr (.atEnd rfl (toggle_advance_zero s))⟩
    · exact ⟨w, hw, .inl ⟨code, body_error_ne_none (f := id) (g := or) (.inr (.inr (.inr (.inr hc)))), rfl⟩⟩
  | out arg =>
    obtain ⟨w, hw, ⟨u, hu, rfl⟩ | ⟨code, hc, rfl⟩⟩ := stepBody_cases h
    · obtain ⟨a, v, rfl, hl, hs, rfl⟩ := storeCell_ok hu
      exact ⟨w, hw, .inr (.store a v rfl hl hs (toggle_advance_store s _ _))⟩
    · exact ⟨w, hw, .inl ⟨code, body_error_ne_none (f := id) (g := or) (.inr (.inl hc)), rfl⟩⟩
  | ld arg =>
    obtain ⟨w, hw, ⟨u, hu, rfl⟩ | ⟨code, hc, rfl⟩⟩ := stepBody_cases h
    · obtain ⟨a, rfl, hl, hr, rfl⟩ := loadCell_ok hu
      exact ⟨w, hw, .inr (.value _ [] s.stk (by simp) (by simp) rfl rfl rfl (fun _ => hr) (toggle_advance_stk s _))⟩
    · exact ⟨w, hw, .inl ⟨code, body_error_ne_none (g := or) (.inl hc), rfl⟩⟩
  | ldnot arg =>
    obtain ⟨w, hw, ⟨u, hu, rfl⟩ | ⟨code, hc, rfl⟩⟩ := stepBody_cases h
    · obtain ⟨a, rfl, hl, hr, rfl⟩ := loadCell_ok hu
      exact ⟨w, hw, .inr (.value _ [] s.stk (by simp) (by simp) rfl rfl rfl (fun _ => hr) (toggle_advance_stk s _))⟩
    · exact ⟨w, hw, .inl ⟨code, body_error_ne_none (g := or) (.inl hc), rfl⟩⟩
  | or arg =>
    obtain ⟨w, hw, ⟨u, hu, rfl⟩ | ⟨code, hc, rfl⟩⟩ := stepBody_cases h
    · obtain ⟨a, v, below, rfl, hl, hs, rfl⟩ := combineCell_ok hu
      exact ⟨w, hw, .inr (.value _ [v] below (by simp) (by simp) hs rfl rfl (fun h => by cases h)
        (toggle_advance_stk s _))⟩
    · exact ⟨w, hw, .inl ⟨code, body_error_ne_none (f := id) (.inr (.inr (.inl hc))), rfl⟩⟩
  | ornot arg =>
    obtain ⟨w, hw, ⟨u, hu, rfl⟩ | ⟨code, hc, rfl⟩⟩ := stepBody_cases h
    · obtain ⟨a, v, below, rfl, hl, hs, rfl⟩ := combineCell_ok hu
      exact ⟨w, hw, .inr (.value _ [v] below (by simp) (by simp) hs rfl rfl (fun h => by cases h)
        (toggle_advance_stk s _))⟩
    · exact ⟨w, hw, .inl ⟨code, body_error_ne_none (f := id) (.inr (.inr (.inl hc))), rfl⟩⟩
  | and arg =>
    obtain ⟨w, hw, ⟨u, hu, rfl⟩ | ⟨code, hc, rfl⟩⟩ := stepBody_cases h
    · obtain ⟨a, v, below, rfl, hl, hs, rfl⟩ := combineCell_ok hu
      exact ⟨w, hw, .inr (.value _ [v] below (by simp) (by simp) hs rfl rfl (fun h => by cases h)
        (toggle_advance_stk s _))⟩
    · exact ⟨w, hw, .inl ⟨code, body_error_ne_none (f := id) (.inr (.inr (.inl hc))), rfl⟩⟩
  | andnot arg =>
    obtain ⟨w, hw, ⟨u, hu, rfl⟩ | ⟨code, hc, rfl⟩⟩ := stepBody_cases h
    · obtain ⟨a, v, below, rfl, hl, hs, rfl⟩ := combineCell_ok hu
      exact ⟨w, hw, .inr (.value _ [v] below (by simp) (by simp) hs rfl rfl (fun h => by cases h)
        (toggle_advance_stk s _))⟩
    · exact ⟨w, hw, .inl ⟨code, body_error_ne_none (f := id) (.inr (.inr (.inl hc))), rfl⟩⟩
  | orstack arg =>
    obtain ⟨w, hw, ⟨u, hu, rfl⟩ | ⟨code, hc, rfl⟩⟩ := stepBody_cases h
    · obtain ⟨v1, v2, below, rfl, hs, rfl⟩ := mergeTop_ok hu
      exact ⟨w, hw, .inr (.value _ [v1, v2] below (by simp) (by simp) hs rfl rfl (fun h => by cases h)
        (toggle_advance_stk s _))⟩
    · exact ⟨w, hw, .inl ⟨code, body_error_ne_none (f := id) (.inr (.inr (.inr (.inl hc)))), rfl⟩⟩
  | andstack arg =>
    obtain ⟨w, hw, ⟨u, hu, rfl⟩ | ⟨code, hc, rfl⟩⟩ := stepBody_cases h
    · obtain ⟨v1, v2, below, rfl, hs, rfl⟩ := mergeTop_ok hu
      exact ⟨w, hw, .inr (.value _ [v1, v2] below (by simp) (by simp) hs rfl rfl (fun h => by cases h)
        (toggle_advance_stk s _))⟩
    · exact ⟨w, hw, .inl ⟨code, body_error_ne_none (f := id) (.inr (.inr (.inr (.inl hc)))), rfl⟩⟩

/-- `exec` answers a next state wherever the word at PC exists. -/
theorem exec_next {s : State} {w : Word} (h : s.prog[s.pc]? = some w) (i : Instr) : ∃ t, exec i s = .next t := by
  cases i <;> exact stepBody_next h _

/-- Everything a step can do when it answers a next state: outside READY it changes nothing; in READY it fetches and
decodes a word and is `exec` of the instruction. -/
theorem step_cases {s t : State} (h : step s = .next t) :
    (s.engine ≠ .ready ∧ t = s) ∨
      (s.engine = .ready ∧ ∃ w i, s.prog[s.pc]? = some w ∧ decodeWord w = .ok i ∧ exec i s = .next t) := by
  unfold step at h
  cases he : s.engine with
  | unloaded => rw [he] at h; cases h; exact .inl ⟨by simp, rfl⟩
  | halted => rw [he] at h; cases h; exact .inl ⟨by simp, rfl⟩
  | ready =>
    rw [he] at h
    dsimp only at h
    refine .inr ⟨rfl, ?_⟩
    unfold State.fetchInstr State.fetch at h
    cases hw : s.prog[s.pc]? with
    | none => rw [hw] at h; cases h
    | some w =>
      rw [hw] at h
      dsimp only at h
      cases hd : decodeWord w with
      | error c => rw [hd] at h; cases h
      | ok i => rw [hd] at h; exact ⟨w, i, rfl, hd, h⟩

/-- What every instruction that completes leaves, whatever its shape. -/
theorem Completes.frame {i : Instr} {s t : State} (h : Completes i s t) :
    t.cfg = s.cfg ∧ t.engine = s.engine ∧ t.prog = s.prog ∧ t.presetA = s.presetA ∧ t.presetB = s.presetB ∧
      t.fcode = s.fcode ∧ t.findex = s.findex ∧ t.fword = s.fword ∧ t.mode = s.modeAfter t.pc ∧
      t.pc = if i = .endScan none then 0 else s.nextPc := by
  cases h with
  | atEnd hi ht => subst ht hi; exact ⟨rfl, rfl, rfl, rfl, rfl, rfl, rfl, rfl, rfl, rfl⟩
  | store a v hi _ _ ht =>
    subst ht hi
    exact ⟨rfl, rfl, rfl, rfl, rfl, rfl, rfl, rfl, rfl, (if_neg (by simp)).symm⟩
  | value v p b hi _ _ _ _ _ ht =>
    subst ht
    exact ⟨rfl, rfl, rfl, rfl, rfl, rfl, rfl, rfl, rfl, (if_neg hi).symm⟩

/-- Everything a step in READY can do when it answers a next state: the instruction at PC takes a fault, or completes. -/
theorem step_ready_cases {s t : State} (hr : s.engine = .ready) (h : step s = .next t) :
    ∃ w i, s.prog[s.pc]? = some w ∧ decodeWord w = .ok i ∧ exec i s = .next t ∧
      ((t.engine = .halted ∧ ∃ code, code ≠ .none ∧ t = s.faulted code w) ∨ (t.engine = .ready ∧ Completes i s t)) := by
  obtain ⟨hn, -⟩ | ⟨-, w, i, hw, hd, he⟩ := step_cases h
  · exact absurd hr hn
  · refine ⟨w, i, hw, hd, he, ?_⟩
    obtain ⟨w', hw', ⟨code, hc, rfl⟩ | hcomp⟩ := exec_cases he
    · rw [hw] at hw'
      cases hw'
      exact .inl ⟨rfl, code, hc, rfl⟩
    · exact .inr ⟨hcomp.frame.2.1.trans hr, hcomp⟩

/-! ## Placing an instruction for the next step -/

/-- The word placed for the next step is the one it fetches, in READY. -/
theorem withFetchWord_fetch (s : State) (nbits w : Nat) :
    (s.withFetchWord nbits w).engine = .ready ∧ (s.withFetchWord nbits w).fetch = some (tableWord nbits w) := by
  refine ⟨rfl, ?_⟩
  unfold State.fetch State.withFetchWord
  dsimp only
  split
  · next h => exact List.getElem?_set_self h
  · rfl

end Sys2Proof.Machine
end

