-- ==== Sys2Proof/Laws/Commands.lean ====
section
/-! SUPPORT. What the host commands and runs of steps can do, one lemma per shared operation. -/

namespace Sys2Proof.Machine

theorem accepted_iff {w : Word} : accepted w = true ↔ ∃ i, decodeWord w = .ok i := by
  unfold accepted
  cases h : decodeWord w <;> simp

/-! ## CONSTRUCT -/

/-- A program has no first rejected word exactly if every word is accepted. -/
theorem firstRejected_none {words : List Word} {i : Nat} :
    firstRejected i words = none ↔ ∀ w ∈ words, accepted w = true := by
  induction words generalizing i with
  | nil => simp [firstRejected]
  | cons w rest ih =>
    unfold firstRejected accepted
    cases h : decodeWord w <;> simp [ih, h, accepted]

/-- The first rejected word, with the index counted from `j`. -/
theorem firstRejected_some {words : List Word} {i j : Nat} {w : Word} {code : RejectCode} (hw : words[i]? = some w)
    (hd : decodeWord w = .error code)
    (hb : ∀ (k : Nat) (u : Word), k < i → words[k]? = some u → accepted u = true) :
    firstRejected j words = some (code, j + i) := by
  induction words generalizing i j with
  | nil => simp at hw
  | cons x rest ih =>
    unfold firstRejected
    cases i with
    | zero =>
      obtain rfl : x = w := by simpa using hw
      simp [hd]
    | succ i =>
      obtain ⟨y, hy⟩ := accepted_iff.1 (hb 0 x (by omega) rfl)
      rw [hy]
      dsimp only
      rw [ih (i := i) (by simpa using hw) fun k u hk hu => hb (k + 1) u (by omega) (by simpa using hu)]
      congr 2
      omega

/-- A program passes the checks of CONSTRUCT exactly if its length is in range and every word is accepted. -/
theorem rejection_none_iff {c : Config} {words : List Word} :
    rejection c words = none ↔ 1 ≤ words.length ∧ words.length ≤ c.pmax ∧ ∀ w ∈ words, accepted w = true := by
  unfold rejection
  split
  · simp; omega
  · split
    · simp; omega
    · rw [firstRejected_none]
      exact ⟨fun h => ⟨by omega, by omega, h⟩, fun h => h.2.2⟩

/-- Everything CONSTRUCT can do. -/
theorem construct_cases (s : State) (words : List Word) (pa pb : Bank) :
    (∃ code i, rejection s.cfg words = some (code, i) ∧ s.construct words pa pb = (s, .reject code i)) ∨
      (rejection s.cfg words = none ∧ s.construct words pa pb =
        (s.initialise words (Bank.ofPreset (cellCount s.cfg) pa) (Bank.ofPreset (cellCount s.cfg) pb), .ok)) := by
  unfold State.construct
  cases h : rejection s.cfg words with
  | none => exact .inr ⟨rfl, rfl⟩
  | some x => exact .inl ⟨x.1, x.2, rfl, rfl⟩

/-! ## READREG -/

theorem register_isSome (s : State) {r : Nat} (h : r < 13) : ∃ v, s.register r = some v := by
  interval_cases r <;> exact ⟨_, rfl⟩

theorem register_none (s : State) {r : Nat} (h : 13 ≤ r) : s.register r = none := by
  obtain ⟨k, rfl⟩ := Nat.exists_eq_add_of_le' h
  rfl

theorem le_two_pow_ceilLog2 (n : Nat) : n ≤ 2 ^ ceilLog2 n := by
  unfold ceilLog2
  split
  · omega
  · have : n - 1 < 2 ^ (Nat.log2 (n - 1) + 1) := Nat.lt_log2_self
    omega

/-! ## SCAN and runs -/

/-- Everything the first step of SCAN can lead to when SCAN is answered: a fault ends it, PC = 0 ends it, or it goes
on. -/
theorem scanSteps_cases {fuel k : Nat} {s t : State} {r : Response} (h : scanSteps (fuel + 1) k s = .next (t, r)) :
    ∃ u, step s = .next u ∧
      ((u.engine = .halted ∧ t = u ∧ r = u.faultResponse) ∨
        (u.engine ≠ .halted ∧ u.pc = 0 ∧ t = u ∧ r = .done (k + 1)) ∨
        (u.engine ≠ .halted ∧ u.pc ≠ 0 ∧ scanSteps fuel (k + 1) u = .next (t, r))) := by
  unfold scanSteps at h
  cases hs : step s with
  | next u =>
    rw [hs] at h
    dsimp only at h
    refine ⟨u, rfl, ?_⟩
    split at h
    · next hh => cases h; exact .inl ⟨hh, rfl, rfl⟩
    · next hh =>
      split at h
      · next h0 => cases h; exact .inr (.inl ⟨hh, h0, rfl, rfl⟩)
      · next h0 => exact .inr (.inr ⟨hh, h0, h⟩)
  | fault f => rw [hs] at h; cases h
  | refused x => rw [hs] at h; cases h

/-- `k + 1` steps: one step, then `k`. -/
theorem stepTimes_succ {k : Nat} {s u : State} (h : step s = .next u) : stepTimes (k + 1) s = stepTimes k u := by
  simp only [stepTimes, h]

/-- `k + 1` steps: `k` steps, then one. -/
theorem stepTimes_snoc {k : Nat} {s u : State} (h : stepTimes k s = .next u) : stepTimes (k + 1) s = step u := by
  induction k generalizing s with
  | zero =>
    cases h
    simp only [stepTimes]
    cases hs : step u <;> simp
  | succ k ih =>
    cases hs : step s with
    | next v => rw [stepTimes_succ hs] at h ⊢; exact ih h
    | fault f => simp [stepTimes, hs] at h
    | refused x => simp [stepTimes, hs] at h

/-- A run's beginning is a run. -/
theorem Run.take {tr : Nat → State} {n m : Nat} (h : Run tr n) (hm : m ≤ n) : Run tr m :=
  ⟨fun j hj => h.1 j (by omega), fun j hj => h.2 j (by omega)⟩

theorem boundaries_succ (tr : Nat → State) (n : Nat) :
    boundaries tr (n + 1) = boundaries tr n + if (tr (n + 1)).pc = 0 then 1 else 0 := by
  simp [boundaries, List.range_succ]

theorem boundaries_mono (tr : Nat → State) {j m : Nat} (h : j ≤ m) : boundaries tr j ≤ boundaries tr m := by
  induction m, h using Nat.le_induction with
  | base => exact Nat.le_refl _
  | succ m _ ih => rw [boundaries_succ]; omega

end Sys2Proof.Machine
end

