-- ==== Sys2Proof/Laws/Encoding.lean ====
section
/-! SUPPORT. The fields of a word, and the words of the encoder, as numbers. -/

namespace Sys2Proof

theorem opcField_toNat (w : Word) : (opcField w).toNat = w.toNat % 16 := by
  simp [opcField, BitVec.extractLsb'_toNat]

theorem rsvField_toNat (w : Word) : (rsvField w).toNat = w.toNat / 16 % 8 := by
  simp [rsvField, BitVec.extractLsb'_toNat, Nat.shiftRight_eq_div_pow]

theorem argpField_toNat (w : Word) : (argpField w).toNat = w.toNat / 128 % 2 := by
  simp [argpField, BitVec.extractLsb'_toNat, Nat.shiftRight_eq_div_pow]

theorem selField_toNat (w : Word) : (selField w).toNat = w.toNat / 256 % 256 := by
  simp [selField, BitVec.extractLsb'_toNat, Nat.shiftRight_eq_div_pow]

theorem addrField_toNat (w : Word) : (addrField w).toNat = w.toNat / 65536 := by
  have := w.isLt
  simp [addrField, BitVec.extractLsb'_toNat, Nat.shiftRight_eq_div_pow]
  omega

/-- The number of two fields side by side. -/
theorem toNat_append_eq {m n : Nat} (x : BitVec m) (y : BitVec n) : (x ++ y).toNat = x.toNat * 2 ^ n + y.toNat := by
  rw [BitVec.toNat_append, ← Nat.shiftLeft_add_eq_or_of_lt y.isLt, Nat.shiftLeft_eq]

/-- The number of a word without an argument (R46). -/
theorem packWord_none_toNat (opc : BitVec 4) : (packWord opc none).toNat = opc.toNat := by
  have := opc.isLt
  simp only [packWord, toNat_append_eq]
  simp

/-- The number of a word with an argument (R46). -/
theorem packWord_some_toNat (opc : BitVec 4) (a : Argument) :
    (packWord opc (some a)).toNat = opc.toNat + 128 + 256 * a.sel.toNat + 65536 * a.addr.toNat := by
  simp only [packWord, toNat_append_eq]
  simp
  omega

theorem opcField_packWord (opc : BitVec 4) (arg : Option Argument) : opcField (packWord opc arg) = opc := by
  have := opc.isLt
  apply BitVec.eq_of_toNat_eq
  cases arg with
  | none => rw [opcField_toNat, packWord_none_toNat]; omega
  | some a => rw [opcField_toNat, packWord_some_toNat]; omega

theorem rsvField_packWord (opc : BitVec 4) (arg : Option Argument) : rsvField (packWord opc arg) = 0 := by
  have := opc.isLt
  apply BitVec.eq_of_toNat_eq
  cases arg with
  | none => rw [rsvField_toNat, packWord_none_toNat]; simp; omega
  | some a => rw [rsvField_toNat, packWord_some_toNat]; simp; omega

theorem argpField_packWord (opc : BitVec 4) (arg : Option Argument) :
    argpField (packWord opc arg) = if arg.isSome then 1 else 0 := by
  have := opc.isLt
  apply BitVec.eq_of_toNat_eq
  cases arg with
  | none => rw [argpField_toNat, packWord_none_toNat]; simp; omega
  | some a => rw [argpField_toNat, packWord_some_toNat]; simp; omega

theorem selField_packWord (opc : BitVec 4) (arg : Option Argument) :
    selField (packWord opc arg) = (match arg with | none => 0 | some a => a.sel) := by
  have := opc.isLt
  apply BitVec.eq_of_toNat_eq
  cases arg with
  | none => rw [selField_toNat, packWord_none_toNat]; simp; omega
  | some a =>
    have := a.sel.isLt
    rw [selField_toNat, packWord_some_toNat]
    dsimp only
    omega

theorem addrField_packWord (opc : BitVec 4) (arg : Option Argument) :
    addrField (packWord opc arg) = (match arg with | none => 0 | some a => a.addr) := by
  have := opc.isLt
  apply BitVec.eq_of_toNat_eq
  cases arg with
  | none => rw [addrField_toNat, packWord_none_toNat]; simp; omega
  | some a =>
    have := a.sel.isLt
    have := a.addr.isLt
    rw [addrField_toNat, packWord_some_toNat]
    dsimp only
    omega

/-! ## The opcode map -/

theorem mnemonicOf_opc (m : Mnemonic) : mnemonicOf m.opc = some m := by cases m <;> rfl

theorem opc_of_mnemonicOf {opc : BitVec 4} {m : Mnemonic} (h : mnemonicOf opc = some m) : m.opc = opc := by
  revert h; revert opc m; decide

@[simp] theorem Mnemonic.instr_mnemonic (m : Mnemonic) (arg : Option Argument) : (m.instr arg).mnemonic = m := by
  cases m <;> rfl

@[simp] theorem Mnemonic.instr_arg (m : Mnemonic) (arg : Option Argument) : (m.instr arg).arg = arg := by
  cases m <;> rfl

@[simp] theorem Instr.mnemonic_instr (i : Instr) : i.mnemonic.instr i.arg = i := by cases i <;> rfl

end Sys2Proof
end

