-- ==== Sys2Proof/Laws/PerInstr.lean ====
section
/-! SUPPORT. Statements made of every instruction as syntax, one lemma per constructor. -/

namespace Sys2Proof.Laws.OpcodeBits

/-- The low byte of the instruction's word (R46, R47): OPC is its mnemonic's number, RSV is zero, ARGP says whether it
carries an argument. -/
def Statement (i : Instr) : Prop :=
  opcField (encode i) = i.mnemonic.opc ∧ rsvField (encode i) = 0 ∧
    argpField (encode i) = if i.arg.isSome then 1 else 0

theorem of_packWord (i : Instr) : Statement i :=
  ⟨opcField_packWord _ _, rsvField_packWord _ _, argpField_packWord _ _⟩

theorem endScan (arg : Option Argument) : Statement (.endScan arg) := of_packWord _

theorem ld (arg : Option Argument) : Statement (.ld arg) := of_packWord _

theorem ldnot (arg : Option Argument) : Statement (.ldnot arg) := of_packWord _

theorem out (arg : Option Argument) : Statement (.out arg) := of_packWord _

theorem or (arg : Option Argument) : Statement (.or arg) := of_packWord _

theorem ornot (arg : Option Argument) : Statement (.ornot arg) := of_packWord _

theorem and (arg : Option Argument) : Statement (.and arg) := of_packWord _

theorem andnot (arg : Option Argument) : Statement (.andnot arg) := of_packWord _

theorem orstack (arg : Option Argument) : Statement (.orstack arg) := of_packWord _

theorem andstack (arg : Option Argument) : Statement (.andstack arg) := of_packWord _

end Sys2Proof.Laws.OpcodeBits
end

