-- ==== Sys2Proof/Tests/Slice0.lean ====
section
/-! SUPPORT. The model's own tests. Expected values are those of spec/95_test_vectors.md (a name ends in the vector's id)
and of the encodings of spec/30_encoding.md. Then, for every statement with hypotheses, a witness that meets them, clause
by clause. -/

namespace Sys2Proof.Tests

open Sys2Proof.Machine

/-! ## Helpers -/

/-- A block that has just been constructed in the normative configuration, with all-zero presets. -/
def machine (words : List Word) : State := (State.powerOn Config.standard).initialise words [] []

/-- The state of an outcome has a property. -/
def gives (o : Host.Outcome State Fault Refusal) (p : State → Bool) : Bool :=
  match o with
  | .next t => p t
  | .fault _ => false
  | .refused _ => false

/-- The responses of a sequence of commands. -/
def answers (cs : List Command) (s : State) : Option (List Response) :=
  match commands cs s with
  | .next (_, rs) => some rs
  | .fault _ => none
  | .refused _ => none

/-- The state after a step. -/
def stepped (s : State) : State :=
  match step s with
  | .next t => t
  | .fault _ => s
  | .refused _ => s

/-- The state after a SCAN. -/
def scanned (s : State) : State :=
  match command .scan s with
  | .next (t, _) => t
  | .fault _ => s
  | .refused _ => s

/-- The states of the steps from `s`. -/
def trace (s : State) : Nat → State
  | 0 => s
  | k + 1 => stepped (trace s k)

/-- The states between the SCANs from `s`. -/
def scans (s : State) : Nat → State
  | 0 => s
  | k + 1 => scanned (scans s k)

/-! ## WellFormed: an ill-formed term for each check -/

theorem test_wf_refuses_missing_argument :
    [Instr.ld none, .ldnot none, .out none, .or none, .ornot none, .and none, .andnot none].all (fun i => !i.wf) = true := by
  decide

theorem test_wf_refuses_extra_argument :
    [Instr.endScan (some ⟨0x4D, 0⟩), .orstack (some ⟨0, 0⟩), .andstack (some ⟨0, 0⟩)].all (fun i => !i.wf) = true := by
  decide

theorem test_wf_accepts_right_shapes :
    (Instr.endScan none).wf = true ∧ (Instr.ld (some ⟨0x4D, 0⟩)).wf = true ∧ (Instr.andstack none).wf = true := by decide

theorem test_config_wf :
    Config.standard.wf = true ∧
    (Config.mk 0 .inclusive .perInstruction 8 64).wf = false ∧
    (Config.mk 0xFFFE .inclusive .perInstruction 8 64).wf = true ∧
    (Config.mk 0xFFFF .inclusive .perInstruction 8 64).wf = false ∧
    (Config.mk 256 .strict .perScan 1 64).wf = false ∧
    (Config.mk 256 .strict .perScan (2 ^ 32) 64).wf = false ∧
    (Config.mk 256 .strict .perScan 2 0).wf = false ∧
    (Config.mk 256 .strict .perScan 2 (2 ^ 32)).wf = false ∧
    (Config.mk 256 .strict .perScan 2 1).wf = true := by decide

theorem test_line_wf :
    (Line.mk .ld (some ('M', 0))).wf = true ∧ (Line.mk .ld (some ('a', 0))).wf = false ∧
    (Line.mk .ld (some ('@', 0))).wf = false := by decide

/-! ## Decoding: words written out from the layout of R46 (ADDR, SEL, ARGP, RSV, OPC) and the table of R47 -/

theorem test_decode_end : decodeWord (0b0000000000000000_00000000_0_000_0000 : Word) = .ok (.endScan none) := by decide

theorem test_decode_ld :
    decodeWord (0b0000000000000101_01000001_1_000_0001 : Word) = .ok (.ld (some ⟨0x41, 5⟩)) := by decide

theorem test_decode_ldnot :
    decodeWord (0b0000000000000000_01001101_1_000_0010 : Word) = .ok (.ldnot (some ⟨0x4D, 0⟩)) := by decide

theorem test_decode_out :
    decodeWord (0b0000000100000000_01001101_1_000_0011 : Word) = .ok (.out (some ⟨0x4D, 0x100⟩)) := by decide

theorem test_decode_or :
    decodeWord (0b0000000000100011_01001101_1_000_0100 : Word) = .ok (.or (some ⟨0x4D, 0x23⟩)) := by decide

theorem test_decode_ornot :
    decodeWord (0b0000000000000000_01001101_1_000_0101 : Word) = .ok (.ornot (some ⟨0x4D, 0⟩)) := by decide

theorem test_decode_and :
    decodeWord (0b0000000000010011_01001101_1_000_0110 : Word) = .ok (.and (some ⟨0x4D, 0x13⟩)) := by decide

theorem test_decode_andnot :
    decodeWord (0b0000000000000000_01001101_1_000_0111 : Word) = .ok (.andnot (some ⟨0x4D, 0⟩)) := by decide

theorem test_decode_orstack : decodeWord (0b0000000000000000_00000000_0_000_1000 : Word) = .ok (.orstack none) := by decide

theorem test_decode_andstack : decodeWord (0b0000000000000000_00000000_0_000_1001 : Word) = .ok (.andstack none) := by decide

/-- A word with the wrong ARGP for its opcode is accepted (R48, V107, V108). -/
theorem test_decode_wrong_shapes :
    decodeWord (0x00000080 : Word) = .ok (.endScan (some ⟨0, 0⟩)) ∧ decodeWord (0x00000001 : Word) = .ok (.ld none) := by
  decide

theorem test_decode_rejections_V102_V103_V104_V105 :
    decodeWord (0x0000000A : Word) = .error .opcode ∧ decodeWord (0x00000010 : Word) = .error .reserved ∧
    decodeWord (0x00010000 : Word) = .error .nonCanonical ∧ decodeWord (0x00004D00 : Word) = .error .nonCanonical := by
  decide

theorem test_decode_table_word :
    decodeTableWord 32 0x01004D83 = some (.out (some ⟨0x4D, 0x100⟩)) ∧ decodeTableWord 32 9 = some (.andstack none) ∧
    decodeTableWord 32 0x0000001A = none := by decide

/-! ## Steps -/

theorem test_end_V55 :
    gives (step { machine [0x4D81, 0x4D81, 0x4D81, 0, 0x4D81] with pc := 3 })
      (fun t => decide (t.pc = 0 ∧ t.mode = true ∧ t.engine = .ready)) = true := by decide

theorem test_end_with_argument_V51 :
    gives (step (machine [0x80]))
      (fun t => decide (t.fcode = .argShape ∧ t.findex = 0 ∧ t.fword = 0x80 ∧ t.pc = 0 ∧ t.mode = false)) = true := by decide

theorem test_ld_V11 :
    gives (step { machine [0x00054D81] with bankA := [(5, true)] })
      (fun t => decide (t.stk = [true] ∧ t.mode = true)) = true := by decide

theorem test_ld_V18 :
    gives (step { machine [0x00004D81] with stk := List.replicate 8 false })
      (fun t => decide (t.fcode = .stackOverflow ∧ t.sp = 8 ∧ t.mode = false ∧ t.engine = .halted)) = true := by decide

theorem test_ldnot_V1A :
    gives (step (machine [0x00004D82])) (fun t => decide (t.stk = [true] ∧ t.mode = true)) = true := by decide

theorem test_ldnot_V1C :
    gives (step { machine [0x00004D82] with mode := true, bankA := [(0, true)] })
      (fun t => decide (t.stk = [true] ∧ t.mode = false)) = true := by decide

theorem test_out_V24 :
    gives (step { machine [0x00014D83] with stk := [true] })
      (fun t => decide (t.bankB = [(1, true)] ∧ t.bankA = [] ∧ t.stk = [] ∧ t.mode = true)) = true := by decide

theorem test_out_V22 :
    gives (step (machine [0x01014D83])) (fun t => decide (t.fcode = .addrBounds ∧ t.fword = 0x01014D83)) = true := by decide

theorem test_or_V30 :
    gives (step { machine [0x00004D84] with stk := [false], bankA := [(0, true)] })
      (fun t => decide (t.stk = [true])) = true := by decide

theorem test_or_V34 :
    gives (step (machine [0x00004D84])) (fun t => decide (t.fcode = .stackDepth ∧ t.engine = .halted)) = true := by decide

theorem test_ornot_V31_10 :
    gives (step { machine [0x00004D85] with stk := [true] }) (fun t => decide (t.stk = [false])) = true := by decide

theorem test_ornot_V31_00 :
    gives (step { machine [0x00004D85] with stk := [false] }) (fun t => decide (t.stk = [true])) = true := by decide

theorem test_and_V35 :
    gives (step { machine [0x00014D86] with stk := [true, true] })
      (fun t => decide (t.stk = [false, true])) = true := by decide

theorem test_and_V32_11 :
    gives (step { machine [0x00004D86] with stk := [true], bankA := [(0, true)] })
      (fun t => decide (t.stk = [true])) = true := by decide

theorem test_andnot_V33_00 :
    gives (step { machine [0x00004D87] with stk := [false] }) (fun t => decide (t.stk = [true])) = true := by decide

theorem test_andnot_V38 :
    gives (step { machine [0x01004D87] with stk := [false], cfg := { Config.standard with bounds := .strict } })
      (fun t => decide (t.fcode = .addrBounds ∧ t.sp = 1)) = true := by decide

theorem test_orstack_V42 :
    gives (step { machine [8] with stk := [true, false, true] }) (fun t => decide (t.stk = [true, true])) = true := by decide

theorem test_orstack_V46 :
    gives (step { machine [0x88] with stk := [true, true] })
      (fun t => decide (t.fcode = .argShape ∧ t.stk = [true, true])) = true := by decide

theorem test_andstack_V43 :
    gives (step { machine [9] with stk := [false, true] }) (fun t => decide (t.stk = [false])) = true := by decide

theorem test_andstack_V45 :
    gives (step (machine [9])) (fun t => decide (t.fcode = .stackDepth ∧ t.stk = [])) = true := by decide

/-- withFetchWord makes the very next step run the word, from reset: LD pushes. -/
theorem test_withFetchWord_from_reset :
    gives (step (State.reset.withFetchWord 32 0x00004D81)) (fun t => decide (t.stk = [false] ∧ t.mode = true)) = true := by
  decide

/-! ## Commands -/

/-- V1 (source): the golden scenario, one SCAN of four steps. -/
theorem test_golden_V1 :
    answers [.construct [0x4D81, 0x14D83, 0x4D82, 0x4D83] [] [], .scan, .read 1, .read 0] (State.powerOn Config.standard)
      = some [.ok, .done 4, .value false, .value true] := by decide

theorem test_unloaded_V56_V57_V58 :
    answers [.step, .scan, .read 0, .reset, .readReg 0, .readReg 1, .readReg 13] State.reset
      = some [.notLoaded, .notLoaded, .notLoaded, .notLoaded, .regValue 0, .regValue 0, .badReg] := by decide

theorem test_construct_V104_V107_V106 :
    answers [.construct [0x10000] [] [], .construct [0x80] [] [], .construct [0x4D81, 0xF] [] []] State.reset
      = some [.reject .nonCanonical 0, .ok, .reject .opcode 1] := by decide

theorem test_read_V60 :
    answers [.read 0x100, .read 0x101] (machine [0]) = some [.value false, .boundsError] := by decide

theorem test_fault_registers :
    answers [.step, .readReg 0, .readReg 4, .readReg 6, .reset, .readReg 4] (machine [0x00014D83])
      = some [.fault .stackDepth 0 0x00014D83, .regValue 2, .regValue 3, .regValue 0x00014D83, .ok, .regValue 0] := by
  decide

/-! ## States for the witnesses -/

/-- The invariant, checked field by field. -/
theorem inv_of_checks {s : State} (h : s.cfg.wf = true ∧ Memory.wf s = true ∧
      (Bank.within s.bankA (cellCount s.cfg) = true ∧ Bank.within s.bankB (cellCount s.cfg) = true ∧
        Bank.within s.presetA (cellCount s.cfg) = true ∧ Bank.within s.presetB (cellCount s.cfg) = true) ∧
      s.sp ≤ s.cfg.smax ∧
      (s.engine ≠ .unloaded → 1 ≤ s.progLen ∧ s.progLen ≤ s.cfg.pmax ∧ s.pc < s.progLen) ∧
      s.prog.all accepted = true ∧
      (s.engine ≠ .halted → s.fcode = .none ∧ s.findex = 0 ∧ s.fword = 0) ∧
      (s.engine = .halted →
        s.fcode ≠ .none ∧ s.prog[s.findex]? = some s.fword ∧ s.pc = (s.findex + 1) % s.prog.length)) : s.Inv :=
  let ⟨h1, h2, ⟨h3, h4, h5, h6⟩, h7, h8, h9, h10, h11⟩ := h
  ⟨h1, h2, h3, h4, h5, h6, h7, h8, fun _ => List.all_eq_true.1 h9, h10, h11⟩

/-- LD M000, OUT M001: two steps to a scan. -/
def copy : State := machine [0x00004D81, 0x00014D83]

/-- The same under PER_SCAN. -/
def copyPerScan : State := { copy with cfg := { Config.standard with toggle := .perScan } }

/-- LD M000, ANDNOT M000, OUT M001, END: an even KSCAN with an OUT at an even index. -/
def hidden : State := machine [0x00004D81, 0x00004D87, 0x00014D83, 0]

/-- LD M000: each scan leaves one entry more. -/
def unbalanced : State := machine [0x00004D81]

/-- Halted by ARG_SHAPE. -/
def halted : State := stepped (machine [0x80])

theorem copy_inv : copy.Inv := inv_of_checks (by decide)

theorem copyPerScan_inv : copyPerScan.Inv := inv_of_checks (by decide)

theorem hidden_inv : hidden.Inv := inv_of_checks (by decide)

theorem unbalanced_inv : unbalanced.Inv := inv_of_checks (by decide)

theorem halted_inv : halted.Inv := inv_of_checks (by decide)

theorem reset_inv : State.reset.Inv := inv_of_checks (by decide)

theorem copy_run : Run (trace copy) 2 := by
  constructor
  · intro j hj
    interval_cases j <;> rfl
  · decide

theorem copyPerScan_run : Run (trace copyPerScan) 2 := by
  constructor
  · intro j hj
    interval_cases j <;> rfl
  · decide

/-! ## Witnesses: encoding -/

theorem witness_DecodeEncodeRoundTrip : decodeWord (0x00004D81 : Word) = .ok (.ld (some ⟨0x4D, 0⟩)) := by decide

/-- A word for each clause: OPC 10; OPC 9 with RSV 1; ARGP 0 with SEL or ADDR not zero; the canonical form with OPC 9;
ARGP 1. -/
theorem witness_DecodeFollowsFieldsInOrder :
    10 ≤ (0x1A : Word).toNat % 16 ∧
    ((0x19 : Word).toNat % 16 < 10 ∧ (0x19 : Word).toNat / 16 % 8 ≠ 0) ∧
    ((0x4D00 : Word).toNat % 16 < 10 ∧ (0x4D00 : Word).toNat / 16 % 8 = 0 ∧ (0x4D00 : Word).toNat / 128 % 2 = 0 ∧
      (0x4D00 : Word).toNat / 256 % 256 ≠ 0) ∧
    ((0x10000 : Word).toNat % 16 < 10 ∧ (0x10000 : Word).toNat / 16 % 8 = 0 ∧ (0x10000 : Word).toNat / 128 % 2 = 0 ∧
      (0x10000 : Word).toNat / 65536 ≠ 0) ∧
    ((9 : Word).toNat % 16 < 10 ∧ (9 : Word).toNat / 16 % 8 = 0 ∧ (9 : Word).toNat / 128 % 2 = 0 ∧
      (9 : Word).toNat / 256 % 256 = 0 ∧ (9 : Word).toNat / 65536 = 0) ∧
    ((0xFFFFFF89 : Word).toNat % 16 < 10 ∧ (0xFFFFFF89 : Word).toNat / 16 % 8 = 0 ∧
      (0xFFFFFF89 : Word).toNat / 128 % 2 = 1) := by decide

/-- The largest N: address 0xFFFF is still outside the bank. -/
theorem witness_TextAddressIsClampedOutOfBounds :
    (Config.mk 0xFFFE .inclusive .perInstruction 8 64).wf = true := by decide

/-! ## Witnesses: the step -/

theorem witness_StepRunsDecodedInstruction :
    copy.engine = .ready ∧ copy.prog[copy.pc]? = some 0x4D81 ∧
    decodeWord (0x4D81 : Word) = .ok (.ld (some ⟨0x4D, 0⟩)) := by decide

theorem witness_FetchExistsAndPcAdvances : copy.Inv ∧ copy.engine = .ready := ⟨copy_inv, by decide⟩

/-- A scan passes through the END at index 3 at most: step 2 of it. -/
theorem witness_EndResetsThePc :
    hidden.Inv ∧ hidden.engine = .ready ∧ hidden.pc ≤ 3 ∧ hidden.prog[3]? = some 0 ∧
    step hidden = .next (stepped hidden) :=
  ⟨hidden_inv, by decide, by decide, by decide, rfl⟩

/-- A word at PC for the END clauses, which have no other hypothesis. -/
theorem witness_EndResetsThePc_word : (machine [0]).prog[(machine [0]).pc]? = some 0 := by decide

/-- The block of the load clauses: address 256 is legal and 257 is not, with the stack full and one below full. -/
def atDepth (w : Word) (n : Nat) : State := { machine [w] with stk := List.replicate n true }

theorem witness_LdPushesTheCell :
    (atDepth 0x01004D81 8).prog[(atDepth 0x01004D81 8).pc]? = some 0x01004D81 ∧
    ¬ LegalAddress (atDepth 0x01004D81 8).cfg (0x101 : Addr).toNat ∧
    LegalAddress (atDepth 0x01004D81 8).cfg (0x100 : Addr).toNat ∧
    (atDepth 0x01004D81 8).stk.length = (atDepth 0x01004D81 8).cfg.smax ∧
    (atDepth 0x01004D81 7).prog[(atDepth 0x01004D81 7).pc]? = some 0x01004D81 ∧
    LegalAddress (atDepth 0x01004D81 7).cfg (0x100 : Addr).toNat ∧
    (atDepth 0x01004D81 7).stk.length ≠ (atDepth 0x01004D81 7).cfg.smax := by decide

theorem witness_LdnotPushesTheComplement :
    (atDepth 0x01004D82 8).prog[(atDepth 0x01004D82 8).pc]? = some 0x01004D82 ∧
    ¬ LegalAddress (atDepth 0x01004D82 8).cfg (0x101 : Addr).toNat ∧
    LegalAddress (atDepth 0x01004D82 8).cfg (0x100 : Addr).toNat ∧
    (atDepth 0x01004D82 8).stk.length = (atDepth 0x01004D82 8).cfg.smax ∧
    (atDepth 0x01004D82 7).prog[(atDepth 0x01004D82 7).pc]? = some 0x01004D82 ∧
    LegalAddress (atDepth 0x01004D82 7).cfg (0x100 : Addr).toNat ∧
    (atDepth 0x01004D82 7).stk.length ≠ (atDepth 0x01004D82 7).cfg.smax := by decide

/-- Depths 0 and 2 on either side of the one OUT accepts. -/
theorem witness_OutWritesTheCell :
    (atDepth 0x01004D83 1).prog[(atDepth 0x01004D83 1).pc]? = some 0x01004D83 ∧
    ¬ LegalAddress (atDepth 0x01004D83 1).cfg (0x101 : Addr).toNat ∧
    LegalAddress (atDepth 0x01004D83 1).cfg (0x100 : Addr).toNat ∧ (atDepth 0x01004D83 1).stk = [true] ∧
    (atDepth 0x01004D83 0).prog[(atDepth 0x01004D83 0).pc]? = some 0x01004D83 ∧
    (atDepth 0x01004D83 0).stk.length ≠ 1 ∧
    (atDepth 0x01004D83 2).prog[(atDepth 0x01004D83 2).pc]? = some 0x01004D83 ∧
    (atDepth 0x01004D83 2).stk.length ≠ 1 := by decide

/-- For OR, ORNOT, AND and ANDNOT, which have one shape: depths 0 and 1, addresses 256 and 257. -/
def CombineClauses (w : Word) : Prop :=
  (atDepth w 0).prog[(atDepth w 0).pc]? = some w ∧ (atDepth w 0).stk = [] ∧
  ¬ LegalAddress (atDepth w 0).cfg (0x101 : Addr).toNat ∧ LegalAddress (atDepth w 0).cfg (0x100 : Addr).toNat ∧
  (atDepth w 1).prog[(atDepth w 1).pc]? = some w ∧ (atDepth w 1).stk = true :: [] ∧
  LegalAddress (atDepth w 1).cfg (0x100 : Addr).toNat

theorem witness_OrCombinesTopWithCell : CombineClauses 0x01004D84 := by unfold CombineClauses; decide

theorem witness_OrnotCombinesTopWithCell : CombineClauses 0x01004D85 := by unfold CombineClauses; decide

theorem witness_AndCombinesTopWithCell : CombineClauses 0x01004D86 := by unfold CombineClauses; decide

theorem witness_AndnotCombinesTopWithCell : CombineClauses 0x01004D87 := by unfold CombineClauses; decide

/-- For ORSTACK and ANDSTACK: depths 1 and 2. -/
def MergeClauses (w : Word) : Prop :=
  (atDepth w 1).prog[(atDepth w 1).pc]? = some w ∧ (atDepth w 1).stk.length < 2 ∧
  (atDepth w 2).prog[(atDepth w 2).pc]? = some w ∧ (atDepth w 2).stk = true :: true :: []

theorem witness_OrstackMergesTheTopTwo : MergeClauses 8 := by unfold MergeClauses; decide

theorem witness_AndstackMergesTheTopTwo : MergeClauses 9 := by unfold MergeClauses; decide

/-! ## Witnesses: rules over all instructions -/

/-- One instruction and state for each clause: ARG_SHAPE, ADDR_BOUNDS, STACK_DEPTH, STACK_OVERFLOW, completion. -/
theorem witness_FirstFailingCheckIsRaised_shape :
    (atDepth 0x80 0).prog[(atDepth 0x80 0).pc]? = some 0x80 ∧ (Instr.endScan (some ⟨0, 0⟩)).wf = false := by decide

theorem witness_FirstFailingCheckIsRaised_bounds :
    (atDepth 0x01014D83 0).prog[(atDepth 0x01014D83 0).pc]? = some 0x01014D83 ∧
    (Instr.out (some ⟨0x4D, 0x101⟩)).wf = true ∧
    (∀ a, (Instr.out (some ⟨0x4D, 0x101⟩)).address = some a → ¬ LegalAddress (atDepth 0x01014D83 0).cfg a) ∧
    (Instr.out (some ⟨0x4D, 0x101⟩)).address ≠ none :=
  ⟨by decide, by decide, fun a h => by cases h; decide, by decide⟩

theorem witness_FirstFailingCheckIsRaised_depth :
    (atDepth 0x01004D83 2).prog[(atDepth 0x01004D83 2).pc]? = some 0x01004D83 ∧
    (Instr.out (some ⟨0x4D, 0x100⟩)).wf = true ∧
    (∀ a, (Instr.out (some ⟨0x4D, 0x100⟩)).address = some a → LegalAddress (atDepth 0x01004D83 2).cfg a) ∧
    ¬ (Instr.out (some ⟨0x4D, 0x100⟩)).DepthOk (atDepth 0x01004D83 2).stk.length :=
  ⟨by decide, by decide, fun a h => by cases h; decide, by unfold Instr.DepthOk; decide⟩

theorem witness_FirstFailingCheckIsRaised_room :
    (atDepth 0x01004D81 8).prog[(atDepth 0x01004D81 8).pc]? = some 0x01004D81 ∧
    (Instr.ld (some ⟨0x4D, 0x100⟩)).wf = true ∧
    (∀ a, (Instr.ld (some ⟨0x4D, 0x100⟩)).address = some a → LegalAddress (atDepth 0x01004D81 8).cfg a) ∧
    (Instr.ld (some ⟨0x4D, 0x100⟩)).DepthOk (atDepth 0x01004D81 8).stk.length ∧
    (Instr.ld (some ⟨0x4D, 0x100⟩)).IsLoad ∧ (atDepth 0x01004D81 8).stk.length = (atDepth 0x01004D81 8).cfg.smax :=
  ⟨by decide, by decide, fun a h => by cases h; decide, trivial, ⟨_, .inl rfl⟩, by decide⟩

theorem witness_FirstFailingCheckIsRaised_completes :
    (atDepth 0x01004D81 7).prog[(atDepth 0x01004D81 7).pc]? = some 0x01004D81 ∧
    (Instr.ld (some ⟨0x4D, 0x100⟩)).wf = true ∧
    (∀ a, (Instr.ld (some ⟨0x4D, 0x100⟩)).address = some a → LegalAddress (atDepth 0x01004D81 7).cfg a) ∧
    (Instr.ld (some ⟨0x4D, 0x100⟩)).DepthOk (atDepth 0x01004D81 7).stk.length ∧
    ((Instr.ld (some ⟨0x4D, 0x100⟩)).IsLoad → (atDepth 0x01004D81 7).stk.length ≠ (atDepth 0x01004D81 7).cfg.smax) :=
  ⟨by decide, by decide, fun a h => by cases h; decide, trivial, fun _ => by decide⟩

/-- A step that faults, and a SCAN that a fault ends. -/
theorem witness_FaultEntryIsPrecise :
    (machine [0x80]).engine = .ready ∧ (machine [0x80]).prog[(machine [0x80]).pc]? = some 0x80 ∧
    step (machine [0x80]) = .next halted ∧ halted.engine = .halted ∧
    command .scan (machine [0x80]) = .next (halted, .fault .argShape 0 0x80) :=
  ⟨by decide, by decide, rfl, by decide, rfl⟩

/-- PER_INSTRUCTION; PER_SCAN with PC = 0 after the step; PER_SCAN with PC not 0; a fault. -/
theorem witness_CompletedStepTogglesMode :
    (copy.engine = .ready ∧ step copy = .next (trace copy 1) ∧ (trace copy 1).engine = .ready ∧
      copy.cfg.toggle = .perInstruction) ∧
    ((trace copyPerScan 1).engine = .ready ∧ step (trace copyPerScan 1) = .next (trace copyPerScan 2) ∧
      (trace copyPerScan 2).engine = .ready ∧ (trace copyPerScan 1).cfg.toggle = .perScan ∧
      (trace copyPerScan 2).pc = 0) ∧
    (copyPerScan.engine = .ready ∧ step copyPerScan = .next (trace copyPerScan 1) ∧
      (trace copyPerScan 1).engine = .ready ∧ copyPerScan.cfg.toggle = .perScan ∧ (trace copyPerScan 1).pc ≠ 0) ∧
    ((machine [0x80]).engine = .ready ∧ step (machine [0x80]) = .next halted ∧ halted.engine = .halted) :=
  ⟨⟨by decide, rfl, by decide, by decide⟩, ⟨by decide, rfl, by decide, by decide, by decide⟩,
    ⟨by decide, rfl, by decide, by decide, by decide⟩, ⟨by decide, rfl, by decide⟩⟩

theorem witness_ModeIsStepParity :
    (Run (trace copy) 2 ∧ (trace copy 0).mode = false ∧ (trace copy 0).cfg.toggle = .perInstruction) ∧
    (Run (trace copyPerScan) 2 ∧ (trace copyPerScan 0).mode = false ∧ (trace copyPerScan 0).cfg.toggle = .perScan ∧
      boundaries (trace copyPerScan) 2 = 1) :=
  ⟨⟨copy_run, by decide, by decide⟩, copyPerScan_run, by decide, by decide, by decide⟩

/-- LD completes, and END with an argument faults. -/
theorem witness_NonStoringFrame :
    ((∀ arg, Instr.ld (some ⟨0x4D, 0⟩) ≠ .out arg) ∧ exec (.ld (some ⟨0x4D, 0⟩)) copy = .next (stepped copy)) ∧
    ((∀ arg, Instr.endScan (some ⟨0, 0⟩) ≠ .out arg) ∧ exec (.endScan (some ⟨0, 0⟩)) (machine [0x80]) = .next halted) :=
  ⟨⟨fun _ h => (by cases h), rfl⟩, fun _ h => (by cases h), rfl⟩

/-- A halted state after OUT on an empty stack. -/
def outFaulted : State := stepped (atDepth 0x00014D83 0)

theorem atDepth_out_inv (n : Nat) (h : n < 2) : (atDepth 0x00014D83 n).Inv := by
  interval_cases n <;> exact inv_of_checks (by decide)

theorem witness_OutStoresOnlyItsCell :
    ((atDepth 0x00014D83 1).Inv ∧ (atDepth 0x00014D83 1).engine = .ready ∧
      exec (.out (some ⟨0x4D, 1⟩)) (atDepth 0x00014D83 1) = .next (stepped (atDepth 0x00014D83 1)) ∧
      (stepped (atDepth 0x00014D83 1)).engine = .ready ∧ (atDepth 0x00014D83 1).stk.head? = some true) ∧
    ((atDepth 0x00014D83 0).Inv ∧ (atDepth 0x00014D83 0).engine = .ready ∧
      exec (.out (some ⟨0x4D, 1⟩)) (atDepth 0x00014D83 0) = .next outFaulted ∧ outFaulted.engine = .halted) :=
  ⟨⟨atDepth_out_inv 1 (by decide), by decide, rfl, by decide, by decide⟩, atDepth_out_inv 0 (by decide), by decide, rfl,
    by decide⟩

theorem witness_StackChangesOnlyAtTheTop :
    ((atDepth 8 2).engine = .ready ∧ exec (.orstack none) (atDepth 8 2) = .next (stepped (atDepth 8 2)) ∧
      (stepped (atDepth 8 2)).engine = .ready) ∧
    ((atDepth 8 1).engine = .ready ∧ exec (.orstack none) (atDepth 8 1) = .next (stepped (atDepth 8 1)) ∧
      (stepped (atDepth 8 1)).engine = .halted) :=
  ⟨⟨by decide, rfl, by decide⟩, by decide, rfl, by decide⟩

theorem witness_OnlyConstructChangesTheProgram :
    command .reset copy = .next (copy.restart, .ok) ∧ ∀ words pa pb, Command.reset ≠ .construct words pa pb :=
  ⟨rfl, fun _ _ _ h => by cases h⟩

/-! ## Witnesses: memory -/

theorem witness_InBoundsNamesACell :
    Config.standard.bounds = .inclusive ∧ (Config.mk 256 .strict .perInstruction 8 64).bounds = .strict := by decide

theorem witness_MemWriteChangesOneCell : Memory.wf copy = true := by decide

theorem witness_WritesAreIdempotent : Memory.wf copy = true := by decide

/-- Clause 1: the OUT to address 1 at step 1, read at step 2. Clause 2: address 5, which no OUT writes. -/
theorem witness_VisibilityPerInstruction :
    Run (trace copy) 2 ∧ (trace copy 0).Inv ∧ (trace copy 0).Fresh ∧ (trace copy 0).cfg.toggle = .perInstruction ∧
    ((1 < 2 ∧ (2 - 1) % 2 = 1 ∧ (trace copy 1).outAddress = some 1) ∧
      ∀ j, 1 < j → j < 2 → (2 - j) % 2 = 1 → (trace copy j).outAddress ≠ some 1) ∧
    ∀ j < 2, (2 - j) % 2 = 1 → (trace copy j).outAddress ≠ some 5 :=
  ⟨copy_run, copy_inv, by unfold State.Fresh; decide, by decide,
    ⟨by decide, fun j h1 h2 => by omega⟩, by decide⟩

/-- The same under PER_SCAN: the OUT of the first scan, read in the second. -/
theorem witness_VisibilityPerScan :
    Run (trace copyPerScan) 2 ∧ (trace copyPerScan 0).Inv ∧ (trace copyPerScan 0).Fresh ∧
    (trace copyPerScan 0).cfg.toggle = .perScan ∧
    ((1 < 2 ∧ (boundaries (trace copyPerScan) 2 - boundaries (trace copyPerScan) 1) % 2 = 1 ∧
        (trace copyPerScan 1).outAddress = some 1) ∧
      ∀ j, 1 < j → j < 2 → (boundaries (trace copyPerScan) 2 - boundaries (trace copyPerScan) j) % 2 = 1 →
        (trace copyPerScan j).outAddress ≠ some 1) ∧
    ∀ j < 2, (boundaries (trace copyPerScan) 2 - boundaries (trace copyPerScan) j) % 2 = 1 →
      (trace copyPerScan j).outAddress ≠ some 5 :=
  ⟨copyPerScan_run, copyPerScan_inv, by unfold State.Fresh; decide, by decide,
    ⟨by decide, fun j h1 h2 => by omega⟩, by decide⟩

theorem copy_outs (w : Word) (hw : w ∈ copy.prog) (x : Argument) (h : decodeWord w = .ok (.out (some x))) :
    x.addr.toNat = 1 := by
  have hw : w = 0x00004D81 ∨ w = 0x00014D83 := by simpa [copy, machine, State.initialise] using hw
  rcases hw with rfl | rfl <;> cases h
  rfl

theorem witness_UnwrittenCellKeepsItsPreset :
    Run (trace copy) 2 ∧ (trace copy 0).Inv ∧ (trace copy 0).Fresh ∧ (trace copy 0).cfg.toggle = .perInstruction ∧
    ∀ w ∈ (trace copy 0).prog, ∀ x : Argument, decodeWord w = .ok (.out (some x)) → x.addr.toNat ≠ 5 :=
  ⟨copy_run, copy_inv, by unfold State.Fresh; decide, by decide, fun w hw x h => by rw [copy_outs w hw x h]; decide⟩

/-! ## Witnesses: host commands -/

theorem witness_ReadReturnsTheReadBankCell :
    State.reset.engine = .unloaded ∧
    (copy.engine ≠ .unloaded ∧ ¬ LegalAddress copy.cfg 257 ∧ LegalAddress copy.cfg 256) := by decide

theorem witness_ReadRegFollowsTheMap :
    (13 ≤ 13) ∧ (12 < 13 ∧ State.reset.engine = .unloaded) ∧ (12 < 13 ∧ halted.engine ≠ .unloaded) := by decide

theorem witness_RegisterFitsItsBits :
    halted.Inv ∧ command (.readReg 6) halted = .next (halted, .regValue 0x80) := ⟨halted_inv, rfl⟩

theorem witness_ConstructInitialisesEverything :
    1 ≤ [(0x80 : Word)].length ∧ [(0x80 : Word)].length ≤ copy.cfg.pmax ∧ ∀ w ∈ [(0x80 : Word)], accepted w = true :=
  ⟨by decide, by decide, List.all_eq_true.1 (by decide)⟩

/-- PMAX = 4: no words, five words, and a second word of each rejected kind. -/
theorem witness_ConstructRejectsInOrder :
    ([0, 0, 0, 0, 0] : List Word) ≠ [] ∧ (4 : Nat) < ([0, 0, 0, 0, 0] : List Word).length ∧
    ((Config.mk 256 .inclusive .perInstruction 8 4).pmax = 4) ∧
    (([0x4D81, 0x1A] : List Word).length ≤ 4 ∧ ([0x4D81, 0x1A] : List Word)[1]? = some 0x1A ∧
      decodeWord (0x1A : Word) = .error .opcode) ∧
    ∀ (j : Nat) (u : Word), j < 1 → ([0x4D81, 0x1A] : List Word)[j]? = some u → accepted u = true :=
  ⟨by decide, by decide, by decide, by decide, fun j u hj h => by
    obtain rfl : j = 0 := by omega
    cases h
    decide⟩

theorem witness_ResetIsReconstruction :
    (State.reset.Inv ∧ State.reset.engine = .unloaded) ∧ (halted.Inv ∧ halted.engine ≠ .unloaded) :=
  ⟨⟨reset_inv, by decide⟩, halted_inv, by decide⟩

theorem witness_UnloadedAcceptsConstructAndReadreg :
    State.reset.engine = .unloaded ∧ 1 ≤ [(0 : Word)].length ∧ [(0 : Word)].length ≤ State.reset.cfg.pmax ∧
    ∀ w ∈ [(0 : Word)], accepted w = true :=
  ⟨by decide, by decide, by decide, List.all_eq_true.1 (by decide)⟩

theorem witness_HaltedExecutesNothing :
    halted.engine = .halted ∧ command .reset halted = .next (halted.restart, .ok) ∧ halted.restart.engine ≠ .halted :=
  ⟨by decide, rfl, by decide⟩

/-- A sequence with a rejected CONSTRUCT in it, and a CONSTRUCT that is accepted. -/
theorem witness_OnlyResetOrConstructLeavesHalted :
    (halted.Inv ∧ halted.engine = .halted) ∧
    ((∀ c ∈ [Command.step, .scan, .construct [] [] []], c ≠ .reset ∧
        ∀ words pa pb, c = .construct words pa pb → rejection halted.cfg words ≠ none) ∧
      ∃ rs, commands [.step, .scan, .construct [] [] []] halted = .next (halted, rs)) ∧
    ∃ t, command (.construct [0] [] []) halted = .next (t, .ok) := by
  refine ⟨⟨halted_inv, by decide⟩, ⟨?_, _, rfl⟩, _, rfl⟩
  intro c hc
  simp only [List.mem_cons, List.not_mem_nil, or_false] at hc
  rcases hc with rfl | rfl | rfl
  · exact ⟨by decide, fun _ _ _ h => by cases h⟩
  · exact ⟨by decide, fun _ _ _ h => by cases h⟩
  · exact ⟨by decide, fun _ _ _ h => by cases h; decide⟩

/-! ## Witnesses: scans -/

/-- A SCAN of two steps that ends at PC = 0, and one that a fault ends. -/
theorem witness_ScanIsRepeatedStep :
    State.reset.engine = .unloaded ∧ halted.engine = .halted ∧ copy.engine = .ready ∧
    command .scan copy = .next (scanned copy, .done 2) ∧ (machine [0x80]).engine = .ready ∧
    command .scan (machine [0x80]) = .next (halted, .fault .argShape 0 0x80) :=
  ⟨by decide, by decide, by decide, rfl, by decide, rfl⟩

theorem witness_EveryScanEnds : copy.Inv ∧ copy.engine = .ready := ⟨copy_inv, by decide⟩

theorem witness_ScanLengthIsKscan :
    (copy.Inv ∧ copy.engine = .ready ∧ copy.pc = 0 ∧ command .scan copy = .next (scanned copy, .done 2)) ∧
    (Run (trace copy) 2 ∧ (trace copy 0).Inv ∧ (trace copy 0).pc = 0) :=
  ⟨⟨copy_inv, by decide, by decide, rfl⟩, copy_run, copy_inv, by decide⟩

theorem hidden_scan : ScanRun (scans hidden) (fun _ => 4) 1 := by
  intro j hj
  interval_cases j
  rfl

theorem witness_ScanParityIsFixedByKscan :
    ScanRun (scans hidden) (fun _ => 4) 1 ∧ (scans hidden 0).Inv ∧ (scans hidden 0).Fresh ∧ (scans hidden 0).pc = 0 ∧
    (scans hidden 0).cfg.toggle = .perInstruction ∧ 0 < 1 ∧ 3 < kscan (scans hidden 0).prog :=
  ⟨hidden_scan, hidden_inv, by unfold State.Fresh; decide, by decide, by decide, by decide, by decide⟩

/-- Address 1 is stored to by the OUT at index 2, and by no OUT at an odd index. -/
theorem witness_EvenScanHidesOutsAtEvenIndices :
    ScanRun (scans hidden) (fun _ => 4) 1 ∧ (scans hidden 0).Inv ∧ (scans hidden 0).Fresh ∧ (scans hidden 0).pc = 0 ∧
    (scans hidden 0).cfg.toggle = .perInstruction ∧ kscan (scans hidden 0).prog % 2 = 0 ∧
    LegalAddress (scans hidden 0).cfg 1 ∧
    ∀ (i : Nat) (w : Word) (x : Argument), i % 2 = 1 → (scans hidden 0).prog[i]? = some w →
      decodeWord w = .ok (.out (some x)) → x.addr.toNat ≠ 1 := by
  refine ⟨hidden_scan, hidden_inv, by unfold State.Fresh; decide, by decide, by decide, by decide, by decide, ?_⟩
  intro i w x hi hw h
  have hlt : i < 4 := (List.getElem?_eq_some_iff.1 hw).1
  obtain rfl | rfl : i = 1 ∨ i = 3 := by omega
  · cases hw
    cases h
  · cases hw
    cases h

theorem witness_UnbalancedScanEventuallyFaults :
    unbalanced.Inv ∧ unbalanced.engine = .ready ∧ unbalanced.pc = 0 ∧
    command .scan unbalanced = .next (scanned unbalanced, .done 1) ∧
    unbalanced.stk.length < (scanned unbalanced).stk.length :=
  ⟨unbalanced_inv, by decide, by decide, rfl, by decide⟩

/-! ## Witnesses: the invariant -/

theorem witness_PowerOnSatisfiesTheInvariant : Config.standard.wf = true := by decide

theorem witness_StepKeepsTheInvariant :
    (copy.Inv ∧ step copy = .next (stepped copy)) ∧ ((machine [0x80]).Inv ∧ step (machine [0x80]) = .next halted) :=
  ⟨⟨copy_inv, rfl⟩, inv_of_checks (by decide), rfl⟩

theorem witness_CommandsKeepTheInvariant :
    State.reset.Inv ∧ ∃ t rs, commands [.construct [0x4D81] [] [], .scan] State.reset = .next (t, rs) :=
  ⟨reset_inv, _, _, rfl⟩

theorem witness_NoCommandIsEverStuck : State.reset.Inv := reset_inv

end Sys2Proof.Tests
end

section
/-! PROOFS. The family 10_state.md: a step keeps the invariant of the block (R16, R19, R24, R28), and READREG follows
the register map (R25). -/

namespace Sys2Proof.Machine

/-! ## The invariant along a step -/

/-- PC wraps modulo L, so the advanced PC is an index of the program again (R62, R63). -/
theorem nextPc_lt {s : State} (h : s.pc < s.prog.length) : s.nextPc < s.prog.length :=
  Nat.mod_lt _ (Nat.zero_lt_of_lt h)

/-- A write to one of the C cells keeps both banks within them. -/
theorem memWrite_within {s : State} {c a : Nat} (hA : Bank.within s.bankA c = true)
    (hB : Bank.within s.bankB c = true) (ha : a < c) (v : Bool) :
    Bank.within (s.memWrite a v).bankA c = true ∧ Bank.within (s.memWrite a v).bankB c = true := by
  rw [State.memWrite_bankA, State.memWrite_bankB]
  cases s.mode
  · exact ⟨hA, Bank.write_within hB ha v⟩
  · exact ⟨Bank.write_within hA ha v, hB⟩

/-- An instruction that completes leaves every bank canonical and within its C cells: only OUT writes a cell, and it
checks the address first (R28, R29, R76). -/
theorem Completes.memory {i : Instr} {s t : State} (h : Completes i s t) (hs : s.Inv) :
    Memory.wf t = true ∧ Bank.within t.bankA (cellCount s.cfg) = true ∧
      Bank.within t.bankB (cellCount s.cfg) = true := by
  cases h with
  | atEnd _ ht => subst ht; exact ⟨hs.memory_wf, hs.bankA_within, hs.bankB_within⟩
  | store a v _ hl _ ht =>
    subst ht
    exact ⟨memWrite_wf hs.memory_wf _ v, memWrite_within hs.bankA_within hs.bankB_within (legal_lt_cells hl) v⟩
  | value v popped below _ _ _ _ _ _ ht => subst ht; exact ⟨hs.memory_wf, hs.bankA_within, hs.bankB_within⟩

/-- An instruction that completes leaves at most SMAX entries: one that pushes without a pop has found SP ≠ SMAX
(R65). -/
theorem Completes.depth_le {i : Instr} {s t : State} (h : Completes i s t) (hs : s.sp ≤ s.cfg.smax) :
    t.sp ≤ s.cfg.smax := by
  cases h with
  | atEnd _ ht => subst ht; exact hs
  | store a v _ _ _ ht => subst ht; exact Nat.zero_le _
  | value v popped below _ _ hstk hpop _ hroom ht =>
    subst ht
    have hsp : s.sp = i.pops + below.length := by rw [State.sp_eq, hstk, List.length_append, hpop]
    show below.length + 1 ≤ s.cfg.smax
    by_cases hp : i.pops = 0
    · have := hroom hp
      omega
    · omega

/-- An instruction that completes leaves PC an index of the program (R16). -/
theorem Completes.pc_lt {i : Instr} {s t : State} (h : Completes i s t) (hs : s.pc < s.prog.length) :
    t.pc < s.prog.length := by
  obtain ⟨-, -, -, -, -, -, -, -, -, hpc⟩ := h.frame
  rw [hpc]
  split
  · exact Nat.zero_lt_of_lt hs
  · exact nextPc_lt hs

/-- Completing an instruction in READY keeps the invariant. -/
theorem Completes.inv {i : Instr} {s t : State} (h : Completes i s t) (hs : s.Inv) (hr : s.engine = .ready) :
    t.Inv := by
  obtain ⟨hcfg, heng, hprog, hpa, hpb, hfcode, hfindex, hfword, -, -⟩ := h.frame
  obtain ⟨hwf, hA, hB⟩ := h.memory hs
  have hloaded : s.engine ≠ .unloaded := by simp [hr]
  obtain ⟨hL, hmax, hpc⟩ := hs.program hloaded
  exact {
    cfg_wf := hcfg ▸ hs.cfg_wf
    memory_wf := hwf
    bankA_within := hcfg ▸ hA
    bankB_within := hcfg ▸ hB
    presetA_within := by rw [hpa, hcfg]; exact hs.presetA_within
    presetB_within := by rw [hpb, hcfg]; exact hs.presetB_within
    depth := hcfg ▸ h.depth_le hs.depth
    program := fun _ => by
      rw [State.progLen_eq, hprog, hcfg]
      exact ⟨hL, hmax, h.pc_lt hpc⟩
    words := fun _ => hprog ▸ hs.words hloaded
    noRecord := fun _ => by
      rw [hfcode, hfindex, hfword]
      exact hs.noRecord (by simp [hr])
    record := fun hh => by simp [heng, hr] at hh }

/-- Fault entry from READY keeps the invariant: the record names the fault, the index and the word fetched there
(R86). -/
theorem faulted_inv {s : State} {code : FaultCode} {w : Word} (hs : s.Inv) (hr : s.engine = .ready)
    (hw : s.prog[s.pc]? = some w) (hc : code ≠ .none) : (s.faulted code w).Inv := by
  have hloaded : s.engine ≠ .unloaded := by simp [hr]
  obtain ⟨hL, hmax, hpc⟩ := hs.program hloaded
  exact {
    cfg_wf := hs.cfg_wf
    memory_wf := hs.memory_wf
    bankA_within := hs.bankA_within
    bankB_within := hs.bankB_within
    presetA_within := hs.presetA_within
    presetB_within := hs.presetB_within
    depth := hs.depth
    program := fun _ => ⟨hL, hmax, nextPc_lt hpc⟩
    words := fun _ => hs.words hloaded
    noRecord := fun h => absurd rfl h
    record := fun _ => ⟨hc, hw, rfl⟩ }

/-- Settles O50: outside READY nothing changes, and in READY the instruction at PC takes a fault or completes. -/
theorem stepKeepsTheInvariant : Obligations.StepKeepsTheInvariant := by
  intro s t hs h
  obtain ⟨-, rfl⟩ | ⟨hr, -⟩ := step_cases h
  · exact hs
  · obtain ⟨w, i, hw, -, -, ⟨-, code, hc, rfl⟩ | ⟨-, hcomp⟩⟩ := step_ready_cases hr h
    · exact faulted_inv hs hr hw hc
    · exact hcomp.inv hs hr

/-! ## READREG -/

/-- READREG of a number outside the map (R25). -/
theorem readReg_of_ge (s : State) {r : Nat} (h : 13 ≤ r) : s.readReg r = .badReg := by
  unfold State.readReg
  rw [register_none s h]

/-- READREG in UNLOADED (R25). -/
theorem readReg_of_unloaded {s : State} {r : Nat} (h : r < 13) (hu : s.engine = .unloaded) :
    s.readReg r = .regValue 0 := by
  obtain ⟨v, hv⟩ := register_isSome s h
  unfold State.readReg
  rw [hv]
  exact congrArg Response.regValue (if_pos hu)

/-- READREG once a program is loaded (R25). -/
theorem readReg_of_loaded {s : State} {r : Nat} {v : BitVec 32} (hl : s.engine ≠ .unloaded)
    (hv : s.register r = some v) : s.readReg r = .regValue v := by
  unfold State.readReg
  rw [hv]
  exact congrArg Response.regValue (if_neg hl)

/-- A value READREG answers is 0, or it is the register's value in a block that holds a program. -/
theorem readReg_value_cases {s : State} {r : Nat} {v : BitVec 32} (h : s.readReg r = .regValue v) :
    v = 0 ∨ (s.engine ≠ .unloaded ∧ s.register r = some v) := by
  rcases Nat.lt_or_ge r 13 with hr | hr
  · by_cases hu : s.engine = .unloaded
    · rw [readReg_of_unloaded hr hu] at h
      cases h
      exact .inl rfl
    · obtain ⟨x, hx⟩ := register_isSome s hr
      rw [readReg_of_loaded hu hx] at h
      cases h
      exact .inr ⟨hu, hx⟩
  · rw [readReg_of_ge s hr] at h
    cases h

/-- The number of STATE in a block that holds a program (R23). -/
theorem engine_number_of_loaded {e : Engine} (h : e ≠ .unloaded) :
    e.number.zeroExtend 32 = BitVec.ofNat 32 (if e = .ready then 1 else 2) := by
  cases e with
  | unloaded => exact absurd rfl h
  | ready => rfl
  | halted => rfl

/-- Settles O35: the three answers of READREG, the last one register by register. -/
theorem readRegFollowsTheMap : Obligations.ReadRegFollowsTheMap := by
  intro s r
  refine ⟨fun hr => ?_, fun hr hu => ?_, fun hr hl => ?_⟩
  · rw [command, readReg_of_ge s hr]
  · rw [command, readReg_of_unloaded hr hu]
  · have answer {v : Nat} (hv : s.register r = some (BitVec.ofNat 32 v)) :
        command (.readReg r) s = .next (s, .regValue (BitVec.ofNat 32 v)) := by
      rw [command, readReg_of_loaded hl hv]
    -- one bullet per register, in the order of the map
    interval_cases r
    · exact ⟨_, rfl, answer (congrArg some (engine_number_of_loaded hl))⟩
    · exact ⟨_, rfl, answer rfl⟩
    · exact ⟨_, rfl, answer (congrArg some (apply_ite (BitVec.ofNat 32) _ 1 0).symm)⟩
    · exact ⟨_, rfl, answer rfl⟩
    · exact ⟨_, rfl, answer (by unfold State.register; cases s.fcode <;> rfl)⟩
    · exact ⟨_, rfl, answer rfl⟩
    · exact ⟨_, rfl, answer (congrArg some (BitVec.ofNat_toNat 32 s.fword).symm)⟩
    · exact ⟨_, rfl, answer rfl⟩
    · exact ⟨_, rfl, answer rfl⟩
    · exact ⟨_, rfl, answer (by unfold State.register; cases s.cfg.bounds <;> rfl)⟩
    · exact ⟨_, rfl, answer (by unfold State.register; cases s.cfg.toggle <;> rfl)⟩
    · exact ⟨_, rfl, answer rfl⟩
    · exact ⟨_, rfl, answer rfl⟩

/-- The ranges of the parameters, as inequalities (R6). -/
theorem config_wf_iff {c : Config} : c.wf = true ↔
    1 ≤ c.n ∧ c.n ≤ 0xFFFE ∧ 2 ≤ c.smax ∧ c.smax < 2 ^ 32 ∧ 1 ≤ c.pmax ∧ c.pmax < 2 ^ 32 := by
  simp [Config.wf, and_assoc]

/-- A number below a power of two stays below it in the 32 bits of READREG. -/
theorem toNat_ofNat_lt {n k : Nat} (h : n < 2 ^ k) : (BitVec.ofNat 32 n).toNat < 2 ^ k :=
  Nat.lt_of_le_of_lt (Nat.mod_le _ _) h

/-- A `k`-bit number stays a `k`-bit number in the 32 bits of READREG. -/
theorem toNat_zeroExtend_lt {k : Nat} (x : BitVec k) : (x.zeroExtend 32).toNat < 2 ^ k := by
  rw [BitVec.toNat_setWidth]
  exact Nat.lt_of_le_of_lt (Nat.mod_le _ _) x.isLt

/-- A count of 0 to `n` fits SPW or LW, the width derived from `n` (R6, R13). -/
theorem count_lt_two_pow {m n : Nat} (h : m ≤ n) : m < 2 ^ ceilLog2 (n + 1) :=
  Nat.lt_of_lt_of_le (Nat.lt_succ_of_le h) (le_two_pow_ceilLog2 (n + 1))

/-- An index of a program of at most `n` words fits PCW, the width derived from `n` (R6, R13). -/
theorem index_lt_two_pow {m n : Nat} (h : m < n) : m < 2 ^ max 1 (ceilLog2 n) :=
  calc m < n := h
    _ ≤ 2 ^ ceilLog2 n := le_two_pow_ceilLog2 n
    _ ≤ 2 ^ max 1 (ceilLog2 n) := Nat.pow_le_pow_right (by decide) (Nat.le_max_right _ _)

/-- FINDEX is below PMAX: in HALTED it is the index of a word of the program, and otherwise it is 0 (R24). -/
theorem findex_lt_pmax {s : State} (hs : s.Inv) (hl : s.engine ≠ .unloaded) : s.findex < s.cfg.pmax := by
  obtain ⟨hL, hmax, -⟩ := hs.program hl
  by_cases hh : s.engine = .halted
  · obtain ⟨-, hword, -⟩ := hs.record hh
    obtain ⟨hlt, -⟩ := List.getElem?_eq_some_iff.1 hword
    exact Nat.lt_of_lt_of_le hlt hmax
  · obtain ⟨-, hzero, -⟩ := hs.noRecord hh
    omega

/-- In a block that holds a program, every register fits the bits the map gives it (R25). -/
theorem register_lt {s : State} {r : Nat} {v : BitVec 32} (hs : s.Inv) (hl : s.engine ≠ .unloaded)
    (h : s.register r = some v) : v.toNat < 2 ^ registerBits s.cfg r := by
  obtain ⟨-, hn, -⟩ := config_wf_iff.1 hs.cfg_wf
  obtain ⟨-, hmax, hpc⟩ := hs.program hl
  have hr : r < 13 := by
    by_contra hge
    simp [register_none s (Nat.le_of_not_lt hge)] at h
  -- one bullet per register, in the order of the map
  interval_cases r <;> cases h
  · exact toNat_zeroExtend_lt s.engine.number
  · exact toNat_ofNat_lt (index_lt_two_pow (Nat.lt_of_lt_of_le hpc hmax))
  · show (if s.mode then 1 else 0 : BitVec 32).toNat < 2 ^ 1
    split <;> decide
  · exact toNat_ofNat_lt (count_lt_two_pow hs.depth)
  · exact toNat_zeroExtend_lt s.fcode.number
  · exact toNat_ofNat_lt (index_lt_two_pow (findex_lt_pmax hs hl))
  · exact BitVec.isLt _
  · exact toNat_ofNat_lt (count_lt_two_pow hmax)
  · exact toNat_ofNat_lt (k := 16) (by omega)
  · exact toNat_ofNat_lt (k := 1) (by cases s.cfg.bounds <;> decide)
  · exact toNat_ofNat_lt (k := 1) (by cases s.cfg.toggle <;> decide)
  · exact BitVec.isLt _
  · exact BitVec.isLt _

/-- Settles O36: READREG answers 0, or the value of a register that fits its bits. -/
theorem registerFitsItsBits : Obligations.RegisterFitsItsBits := by
  intro s r v hs h
  rw [command] at h
  obtain ⟨-, h⟩ := Prod.mk.inj (Host.Outcome.next.inj h)
  obtain rfl | ⟨hl, hv⟩ := readReg_value_cases h
  · exact Nat.two_pow_pos _
  · exact register_lt hs hl hv

end Sys2Proof.Machine
end

section
/-! PROOFS. The family 20_memory.md: the bounds predicate and MemWrite (R28 to R31, R37), the bank letter (R32), what
stores nothing (R33), the byte channel (R35), what changes the program (R43), READ (R45), and that every sequence of
commands is answered (R40). -/

namespace Sys2Proof.Machine

/-! ## What a sequence of steps and a command can do -/

/-- What every step keeps, every number of steps keeps. -/
theorem stepTimes_keeps {P : State → Prop} (hstep : ∀ s t, P s → step s = .next t → P t) {n : Nat} {s t : State}
    (hs : P s) (h : stepTimes n s = .next t) : P t := by
  induction n generalizing s with
  | zero => cases h; exact hs
  | succ n ih =>
    cases hu : step s with
    | next u => exact ih (hstep s u hs hu) (stepTimes_succ hu ▸ h)
    | fault f => simp [stepTimes, hu] at h
    | refused x => simp [stepTimes, hu] at h

/-- A SCAN that is answered leaves the state of a number of steps (R68). -/
theorem scanSteps_stepTimes {fuel k : Nat} {s t : State} {r : Response} (h : scanSteps fuel k s = .next (t, r)) :
    ∃ n, stepTimes n s = .next t := by
  induction fuel generalizing k s with
  | zero => cases h
  | succ fuel ih =>
    obtain ⟨u, hu, ⟨-, rfl, -⟩ | ⟨-, -, rfl, -⟩ | ⟨-, -, hrest⟩⟩ := scanSteps_cases h
    · exact ⟨1, stepTimes_succ hu⟩
    · exact ⟨1, stepTimes_succ hu⟩
    · obtain ⟨n, hn⟩ := ih hrest
      exact ⟨n + 1, (stepTimes_succ hu).trans hn⟩

/-- Everything a command can do to the state when it is answered: it runs a number of steps (none, if it changes
nothing), it restarts the loaded program, or it is a CONSTRUCT that passes its checks (R60). -/
theorem command_cases {c : Command} {s t : State} {r : Response} (h : command c s = .next (t, r)) :
    (∃ n, stepTimes n s = .next t) ∨ (s.engine ≠ .unloaded ∧ t = s.restart) ∨
      ∃ words pa pb, c = .construct words pa pb ∧ rejection s.cfg words = none ∧
        t = s.initialise words (Bank.ofPreset (cellCount s.cfg) pa) (Bank.ofPreset (cellCount s.cfg) pb) := by
  unfold command at h
  cases c with
  | construct words pa pb =>
    dsimp only at h
    obtain ⟨code, i, -, hc⟩ | ⟨hacc, hc⟩ := construct_cases s words pa pb
    · rw [hc] at h; cases h; exact .inl ⟨0, rfl⟩
    · rw [hc] at h; cases h; exact .inr (.inr ⟨words, pa, pb, rfl, hacc, rfl⟩)
  | reset =>
    dsimp only at h
    split at h
    · cases h; exact .inl ⟨0, rfl⟩
    · next hl => cases h; exact .inr (.inl ⟨hl, rfl⟩)
  | step =>
    dsimp only at h
    split at h
    · cases h; exact .inl ⟨0, rfl⟩
    · cases h; exact .inl ⟨0, rfl⟩
    · split at h
      · next u hu => cases h; exact .inl ⟨1, stepTimes_succ hu⟩
      · cases h
      · cases h
  | scan =>
    dsimp only at h
    split at h
    · cases h; exact .inl ⟨0, rfl⟩
    · cases h; exact .inl ⟨0, rfl⟩
    · exact .inl (scanSteps_stepTimes h)
  | read a => cases h; exact .inl ⟨0, rfl⟩
  | readReg r => cases h; exact .inl ⟨0, rfl⟩

/-! ## The invariant along a command -/

/-- Initialising with an accepted program and images of C cells meets the invariant (R100). -/
theorem initialise_inv {s : State} {words : List Word} {pa pb : Bank} (hcfg : s.cfg.wf = true)
    (hrej : rejection s.cfg words = none) (hpa : Bank.wf pa = true) (hpb : Bank.wf pb = true)
    (hA : Bank.within pa (cellCount s.cfg) = true) (hB : Bank.within pb (cellCount s.cfg) = true) :
    (s.initialise words pa pb).Inv := by
  obtain ⟨hL, hmax, hwords⟩ := rejection_none_iff.1 hrej
  exact {
    cfg_wf := hcfg
    memory_wf := initialise_wf hpa hpb
    bankA_within := hA
    bankB_within := hB
    presetA_within := hA
    presetB_within := hB
    depth := Nat.zero_le _
    program := fun _ => ⟨hL, hmax, hL⟩
    words := fun _ => hwords
    noRecord := fun _ => ⟨rfl, rfl, rfl⟩
    record := fun h => by cases h }

/-- RESET of a loaded block keeps the invariant: its program passes the checks of CONSTRUCT again (R102). -/
theorem restart_inv {s : State} (hs : s.Inv) (hl : s.engine ≠ .unloaded) : s.restart.Inv := by
  obtain ⟨hL, hmax, -⟩ := hs.program hl
  obtain ⟨-, -, hpa, hpb⟩ := memory_wf_iff.1 hs.memory_wf
  exact initialise_inv hs.cfg_wf (rejection_none_iff.2 ⟨hL, hmax, hs.words hl⟩) hpa hpb hs.presetA_within
    hs.presetB_within

/-- Every command that is answered keeps the invariant. -/
theorem command_inv {c : Command} {s t : State} {r : Response} (hs : s.Inv) (h : command c s = .next (t, r)) :
    t.Inv := by
  obtain ⟨n, hn⟩ | ⟨hl, rfl⟩ | ⟨words, pa, pb, -, hrej, rfl⟩ := command_cases h
  · exact stepTimes_keeps stepKeepsTheInvariant hs hn
  · exact restart_inv hs hl
  · exact initialise_inv hs.cfg_wf hrej (Bank.ofPreset_wf _ _) (Bank.ofPreset_wf _ _) (Bank.ofPreset_within _ _)
      (Bank.ofPreset_within _ _)

/-! ## Every command is answered -/

/-- Every step is answered: in READY the word at PC exists (R62) and CONSTRUCT accepted it (R61). -/
theorem step_answers {s : State} (hs : s.Inv) : ∃ t, step s = .next t := by
  unfold step
  cases he : s.engine with
  | unloaded => exact ⟨s, rfl⟩
  | halted => exact ⟨s, rfl⟩
  | ready =>
    have hloaded : s.engine ≠ .unloaded := by simp [he]
    obtain ⟨-, -, hpc⟩ := hs.program hloaded
    have hw : s.prog[s.pc]? = some s.prog[s.pc] := List.getElem?_eq_getElem hpc
    obtain ⟨i, hi⟩ := accepted_iff.1 (hs.words hloaded _ (List.getElem_mem hpc))
    have hfetch : s.fetchInstr = .ok i := by
      unfold State.fetchInstr State.fetch
      rw [hw]
      dsimp only
      rw [hi]
    rw [hfetch]
    exact exec_next hw i

/-- An instruction that completes with PC ≠ 0 has moved PC on by one: neither END nor the wrap modulo L took it to 0
(R62, R63, R70). -/
theorem Completes.pc_eq_succ {i : Instr} {s t : State} (h : Completes i s t) (hpc : s.pc < s.prog.length)
    (h0 : t.pc ≠ 0) : t.pc = s.pc + 1 := by
  obtain ⟨-, -, -, -, -, -, -, -, -, ht⟩ := h.frame
  split at ht
  · exact absurd ht h0
  · rcases Nat.lt_or_ge (s.pc + 1) s.prog.length with hlt | hge
    · rw [ht, State.nextPc_eq, Nat.mod_eq_of_lt hlt]
    · have hwrap : s.pc + 1 = s.prog.length := by omega
      rw [State.nextPc_eq, hwrap, Nat.mod_self] at ht
      exact absurd ht h0

/-- A SCAN with fuel for the rest of the program is answered: each step that does not end it moves PC on by one (R69). -/
theorem scanSteps_answers {fuel : Nat} (k : Nat) {s : State} (hs : s.Inv) (hr : s.engine = .ready)
    (hfuel : s.prog.length ≤ fuel + s.pc) : ∃ t r, scanSteps fuel k s = .next (t, r) := by
  have hpc : s.pc < s.prog.length := (hs.program (by simp [hr])).2.2
  induction fuel generalizing k s with
  | zero => omega
  | succ fuel ih =>
    obtain ⟨u, hu⟩ := step_answers hs
    unfold scanSteps
    rw [hu]
    dsimp only
    split
    · exact ⟨_, _, rfl⟩
    · next hnot =>
      split
      · exact ⟨_, _, rfl⟩
      · next h0 =>
        obtain ⟨-, i, -, -, -, ⟨hhalt, -⟩ | ⟨hur, hcomp⟩⟩ := step_ready_cases hr hu
        · exact absurd hhalt hnot
        · obtain ⟨-, -, hprog, -⟩ := hcomp.frame
          have hsucc : u.pc = s.pc + 1 := hcomp.pc_eq_succ hpc h0
          have hlt : u.pc < s.prog.length := hcomp.pc_lt hpc
          exact ih (k + 1) (stepKeepsTheInvariant s u hs hu) hur (by rw [hprog]; omega) (by rw [hprog]; exact hlt)

/-- Every command is answered. -/
theorem command_answers (c : Command) {s : State} (hs : s.Inv) : ∃ t r, command c s = .next (t, r) := by
  unfold command
  cases c with
  | construct words pa pb => exact ⟨_, _, rfl⟩
  | reset => dsimp only; split <;> exact ⟨_, _, rfl⟩
  | step =>
    cases s.engine with
    | unloaded => exact ⟨_, _, rfl⟩
    | halted => exact ⟨_, _, rfl⟩
    | ready =>
      obtain ⟨t, ht⟩ := step_answers hs
      rw [ht]
      exact ⟨_, _, rfl⟩
  | scan =>
    cases he : s.engine with
    | unloaded => exact ⟨_, _, rfl⟩
    | halted => exact ⟨_, _, rfl⟩
    | ready => exact scanSteps_answers 0 hs he (Nat.le_add_right _ _)
  | read a => exact ⟨_, _, rfl⟩
  | readReg r => exact ⟨_, _, rfl⟩

/-- Settles O52: by induction on the commands, each answered from a state that meets the invariant and leaving one. -/
theorem noCommandIsEverStuck : Obligations.NoCommandIsEverStuck := by
  intro cs
  induction cs with
  | nil => exact fun s _ => ⟨s, [], rfl, rfl⟩
  | cons c rest ih =>
    intro s hs
    obtain ⟨t, r, hc⟩ := command_answers c hs
    obtain ⟨u, rs, hrest, hlen⟩ := ih t (command_inv hs hc)
    refine ⟨u, r :: rs, ?_, congrArg (· + 1) hlen⟩
    rw [commands, hc]
    dsimp only
    rw [hrest]

/-! ## What changes the program -/

/-- `t` has the parameters, the program and the presets of `s`. -/
def State.SameLoad (s t : State) : Prop :=
  t.cfg = s.cfg ∧ t.prog = s.prog ∧ t.presetA = s.presetA ∧ t.presetB = s.presetB

/-- An instruction keeps the parameters, the program and the presets, whether it completes or faults (R43). -/
theorem exec_sameLoad {i : Instr} {s t : State} (h : exec i s = .next t) : s.SameLoad t := by
  obtain ⟨w, -, ⟨code, -, rfl⟩ | hcomp⟩ := exec_cases h
  · exact ⟨rfl, rfl, rfl, rfl⟩
  · obtain ⟨hcfg, -, hprog, hpa, hpb, -⟩ := hcomp.frame
    exact ⟨hcfg, hprog, hpa, hpb⟩

/-- Steps keep the parameters, the program and the presets (R43). -/
theorem stepTimes_sameLoad {n : Nat} {s t : State} (h : stepTimes n s = .next t) : s.SameLoad t := by
  refine stepTimes_keeps (P := s.SameLoad) (fun u v hu hv => ?_) ⟨rfl, rfl, rfl, rfl⟩ h
  obtain ⟨-, rfl⟩ | ⟨-, w, i, -, -, hexec⟩ := step_cases hv
  · exact hu
  · obtain ⟨hcfg, hprog, hpa, hpb⟩ := hu
    obtain ⟨hcfg', hprog', hpa', hpb'⟩ := exec_sameLoad hexec
    exact ⟨hcfg'.trans hcfg, hprog'.trans hprog, hpa'.trans hpa, hpb'.trans hpb⟩

/-- Settles O27: a command runs steps, restarts the loaded program, or is a CONSTRUCT. -/
theorem onlyConstructChangesTheProgram : Obligations.OnlyConstructChangesTheProgram := by
  intro c s t r h
  obtain ⟨n, hn⟩ | ⟨-, rfl⟩ | ⟨words, pa, pb, hc, -, rfl⟩ := command_cases h
  · obtain ⟨hcfg, hload⟩ := stepTimes_sameLoad hn
    exact ⟨hcfg, fun _ => hload⟩
  · exact ⟨rfl, fun _ => ⟨rfl, rfl, rfl⟩⟩
  · exact ⟨rfl, fun hne => absurd hc (hne words pa pb)⟩

/-! ## Instructions -/

/-- Only OUT writes a bank: any other instruction that completes leaves both as they were (R33). -/
theorem Completes.banks_eq {i : Instr} {s t : State} (h : Completes i s t) (hi : ∀ arg, i ≠ .out arg) :
    t.bankA = s.bankA ∧ t.bankB = s.bankB := by
  cases h with
  | atEnd _ ht => subst ht; exact ⟨rfl, rfl⟩
  | store a v hout => exact absurd hout (hi (some a))
  | value v popped below _ _ _ _ _ _ ht => subst ht; exact ⟨rfl, rfl⟩

/-- Settles O23: the instruction takes a fault, which touches no bank, or it completes and is not the one that stores. -/
theorem nonStoringFrame : Obligations.NonStoringFrame := by
  intro i s t hi h
  obtain ⟨hcfg, hprog, hpa, hpb⟩ := exec_sameLoad h
  obtain ⟨w, hw, ⟨code, -, rfl⟩ | hcomp⟩ := exec_cases h
  · exact ⟨fun a => ⟨rfl, rfl⟩, hprog, hpa, hpb, hcfg, .inr ⟨rfl, rfl, hw, rfl, rfl⟩⟩
  · obtain ⟨hA, hB⟩ := hcomp.banks_eq hi
    obtain ⟨-, heng, -, -, -, hfcode, hfindex, hfword, -⟩ := hcomp.frame
    exact ⟨fun a => ⟨by rw [hA], by rw [hB]⟩, hprog, hpa, hpb, hcfg, .inl ⟨heng, hfcode, hfindex, hfword⟩⟩

/-- The operand of a mem-operand instruction is its address alone (R32). -/
theorem withCell_sel (a : Addr) (sel sel' : Byte) (s : State) (rest : Nat → Body) :
    withCell (some ⟨sel, a⟩) s rest = withCell (some ⟨sel', a⟩) s rest := rfl

/-- Settles O26: a mem-operand instruction meets the argument in `withCell`, which does not read SEL, and the others
raise ARG_SHAPE whatever the argument is. -/
theorem bankLetterIsIgnored : Obligations.BankLetterIsIgnored := by
  intro m a sel sel' s
  cases m with
  | endScan | orstack | andstack => rfl
  | ld | ldnot | out | or | ornot | and | andnot =>
    exact congrArg s.stepBody (funext fun u => withCell_sel a sel sel' u _)

/-! ## The banks -/

/-- Settles O28: by the two policies. -/
theorem inBoundsNamesACell : Obligations.InBoundsNamesACell := by
  intro c a
  unfold inBounds cellCount
  cases c.bounds with
  | inclusive => simp
  | strict => simp

/-- Settles O29: MODE selects the one bank that is written. -/
theorem memWriteChangesOneCell : Obligations.MemWriteChangesOneCell := by
  intro s a v hwf
  obtain ⟨hA, hB, -, -⟩ := memory_wf_iff.1 hwf
  refine ⟨fun x => ?_, ?_, rfl⟩
  · unfold State.writeBank
    rw [State.memWrite_mode, State.memWrite_bankA, State.memWrite_bankB]
    cases s.mode
    · exact Bank.read_write hB a x v
    · exact Bank.read_write hA a x v
  · unfold State.readBank
    rw [State.memWrite_mode, State.memWrite_bankA, State.memWrite_bankB]
    cases s.mode <;> rfl

/-- Of two writes to the same cell the last one counts. -/
theorem Bank.write_write_same {b : Bank} (hb : Bank.wf b = true) (a : Nat) (v w : Bool) :
    Bank.write (Bank.write b a v) a w = Bank.write b a w := by
  have hv : Bank.wf (Bank.write b a v) = true := Bank.write_wf hb a v
  refine Bank.ext_read (Bank.write_wf hv a w) (Bank.write_wf hb a w) fun x => ?_
  rw [Bank.read_write hv, Bank.read_write hb, Bank.read_write hb]
  split <;> rfl

/-- Settles O30: both writes go to the same bank, as MemWrite keeps MODE. -/
theorem writesAreIdempotent : Obligations.WritesAreIdempotent := by
  intro s a v hwf
  obtain ⟨hA, hB, -, -⟩ := memory_wf_iff.1 hwf
  cases hm : s.mode
  · simp [State.memWrite, hm, Bank.write_write_same hB]
  · simp [State.memWrite, hm, Bank.write_write_same hA]

/-! ## READ -/

/-- READ in UNLOADED (R45). -/
theorem readCell_of_unloaded {s : State} (a : Nat) (hu : s.engine = .unloaded) : s.readCell a = .notLoaded :=
  if_pos hu

/-- READ once a program is loaded: the bounds check decides (R45). -/
theorem readCell_of_loaded {s : State} (a : Nat) (hl : s.engine ≠ .unloaded) :
    s.readCell a = if inBounds s.cfg a then .value (s.memRead a) else .boundsError :=
  if_neg hl

/-- Settles O34: the three answers of READ. -/
theorem readReturnsTheReadBankCell : Obligations.ReadReturnsTheReadBankCell := by
  intro s a
  refine ⟨fun hu => ?_, fun hl hill => ?_, fun hl hleg => ?_⟩
  · rw [command, readCell_of_unloaded a hu]
  · rw [command, readCell_of_loaded a hl, if_neg fun hb => hill (inBounds_iff.1 hb)]
  · rw [command, readCell_of_loaded a hl, if_pos (inBounds_iff.2 hleg), State.memRead_eq]

/-! ## The byte channel -/

/-- The bytes of a word are its base-256 digits, least significant first (R35). -/
theorem bytesOfWord_toNat (w : Word) : (bytesOfWord w).map BitVec.toNat =
    [w.toNat % 256, w.toNat / 256 % 256, w.toNat / 65536 % 256, w.toNat / 16777216] := by
  have htop : w.toNat / 16777216 < 256 := by have := w.isLt; omega
  simp [bytesOfWord, BitVec.extractLsb'_toNat, Nat.shiftRight_eq_div_pow, Nat.mod_eq_of_lt htop]

/-- The four bytes of a word, in the order of the channel, carry it (R35). -/
theorem wordOfBytes_extract (w : Word) :
    wordOfBytes (w.extractLsb' 0 8) (w.extractLsb' 8 8) (w.extractLsb' 16 8) (w.extractLsb' 24 8) = w := by
  have := w.isLt
  apply BitVec.eq_of_toNat_eq
  simp only [wordOfBytes, toNat_append_eq, BitVec.extractLsb'_toNat, Nat.shiftRight_eq_div_pow]
  omega

/-- Settles O6: the digits, and by induction on the words that each arrives. -/
theorem byteChannelIsLittleEndian : Obligations.ByteChannelIsLittleEndian := by
  refine ⟨bytesOfWord_toNat, fun ws => ?_⟩
  induction ws with
  | nil => rfl
  | cons w ws ih =>
    show (wordsOfBytes (ws.flatMap bytesOfWord)).map (wordOfBytes _ _ _ _ :: ·) = some (w :: ws)
    rw [ih, wordOfBytes_extract]
    rfl

end Sys2Proof.Machine
end

section
/-! PROOFS. The family 30_encoding.md: the decode function read off the fields (R56), decode and encode as inverses of
each other (R51), and the text mapping (R57, R49). -/

namespace Sys2Proof

/-! ## The fields of a word that are zero -/

theorem rsvField_eq_zero {w : Word} : rsvField w = 0 ↔ w.toNat / 16 % 8 = 0 := by
  rw [← BitVec.toNat_inj, rsvField_toNat]; rfl

theorem argpField_eq_zero {w : Word} : argpField w = 0 ↔ w.toNat / 128 % 2 = 0 := by
  rw [← BitVec.toNat_inj, argpField_toNat]; rfl

theorem selField_eq_zero {w : Word} : selField w = 0 ↔ w.toNat / 256 % 256 = 0 := by
  rw [← BitVec.toNat_inj, selField_toNat]; rfl

theorem addrField_eq_zero {w : Word} : addrField w = 0 ↔ w.toNat / 65536 = 0 := by
  rw [← BitVec.toNat_inj, addrField_toNat]; rfl

/-- SEL as the low 8 bits of its number (R46). -/
theorem selField_eq_ofNat (w : Word) : selField w = BitVec.ofNat 8 (w.toNat / 256 % 256) := by
  rw [← selField_toNat, BitVec.ofNat_toNat, BitVec.setWidth_eq]

/-- ADDR as the low 16 bits of its number (R46). -/
theorem addrField_eq_ofNat (w : Word) : addrField w = BitVec.ofNat 16 (w.toNat / 65536) := by
  rw [← addrField_toNat, BitVec.ofNat_toNat, BitVec.setWidth_eq]

/-! ## The opcode map in numbers -/

/-- OPC 10 to 15 number no instruction (R52). -/
theorem mnemonicOf_eq_none {opc : BitVec 4} (h : 10 ≤ opc.toNat) : mnemonicOf opc = none := by
  revert opc; decide

/-- OPC 0 to 9 number an instruction (R47). -/
theorem mnemonicOf_isSome {opc : BitVec 4} (h : opc.toNat < 10) : (mnemonicOf opc).isSome = true := by
  revert opc; decide

/-- The constructors of the instructions in the order of their opcode numbers (R47). -/
def instrTable : List (Option Argument → Instr) :=
  [.endScan, .ld, .ldnot, .out, .or, .ornot, .and, .andnot, .orstack, .andstack]

theorem instrTable_opc (m : Mnemonic) : instrTable[m.opc.toNat]? = some m.instr := by cases m <;> rfl

/-- OPC 0 to 9 number a mnemonic, whose constructor stands at that index of the table (R47). -/
theorem mnemonic_of_opc_lt {w : Word} (h : w.toNat % 16 < 10) :
    ∃ m, mnemonicOf (opcField w) = some m ∧ instrTable[w.toNat % 16]? = some m.instr := by
  rw [← opcField_toNat] at h ⊢
  obtain ⟨m, hm⟩ := Option.isSome_iff_exists.1 (mnemonicOf_isSome h)
  exact ⟨m, hm, opc_of_mnemonicOf hm ▸ instrTable_opc m⟩

/-! ## Decode, check by check -/

section
variable {w : Word} {m : Mnemonic}

theorem decodeWord_of_opc_ge (h : 10 ≤ w.toNat % 16) : decodeWord w = .error .opcode := by
  rw [← opcField_toNat] at h
  rw [decodeWord, mnemonicOf_eq_none h]

/-- The checks that are left when OPC numbers an instruction (R56). -/
theorem decodeWord_of_mnemonic (hm : mnemonicOf (opcField w) = some m) :
    decodeWord w =
      if rsvField w ≠ 0 then .error .reserved
      else if argpField w = 0 then
        if selField w ≠ 0 ∨ addrField w ≠ 0 then .error .nonCanonical else .ok (m.instr none)
      else .ok (m.instr (some ⟨selField w, addrField w⟩)) := by
  rw [decodeWord, hm]

theorem decodeWord_reserved (hm : mnemonicOf (opcField w) = some m) (hr : rsvField w ≠ 0) :
    decodeWord w = .error .reserved := by
  rw [decodeWord_of_mnemonic hm, if_pos hr]

theorem decodeWord_nonCanonical (hm : mnemonicOf (opcField w) = some m) (hr : rsvField w = 0)
    (hp : argpField w = 0) (hx : selField w ≠ 0 ∨ addrField w ≠ 0) : decodeWord w = .error .nonCanonical := by
  rw [decodeWord_of_mnemonic hm, if_neg (not_not.2 hr), if_pos hp, if_pos hx]

theorem decodeWord_without_arg (hm : mnemonicOf (opcField w) = some m) (hr : rsvField w = 0)
    (hp : argpField w = 0) (hs : selField w = 0) (ha : addrField w = 0) : decodeWord w = .ok (m.instr none) := by
  rw [decodeWord_of_mnemonic hm, if_neg (not_not.2 hr), if_pos hp, if_neg (by simp [hs, ha])]

theorem decodeWord_with_arg (hm : mnemonicOf (opcField w) = some m) (hr : rsvField w = 0)
    (hp : argpField w ≠ 0) : decodeWord w = .ok (m.instr (some ⟨selField w, addrField w⟩)) := by
  rw [decodeWord_of_mnemonic hm, if_neg (not_not.2 hr), if_neg hp]

/-- Everything an accepted word can be: an opcode number with all other fields zero, or with ARGP = 1 and any SEL and
ADDR (R56). -/
theorem decodeWord_ok_cases {i : Instr} (h : decodeWord w = .ok i) :
    ∃ m, mnemonicOf (opcField w) = some m ∧ rsvField w = 0 ∧
      ((argpField w = 0 ∧ selField w = 0 ∧ addrField w = 0 ∧ i = m.instr none) ∨
        (argpField w ≠ 0 ∧ i = m.instr (some ⟨selField w, addrField w⟩))) := by
  cases hm : mnemonicOf (opcField w) with
  | none => rw [decodeWord, hm] at h; cases h
  | some m =>
    rw [decodeWord_of_mnemonic hm] at h
    refine ⟨m, rfl, ?_⟩
    split at h
    · cases h
    · next hr =>
      refine ⟨not_not.1 hr, ?_⟩
      split at h
      · next hp =>
        split at h
        · cases h
        · next hx =>
          cases h
          obtain ⟨hs, ha⟩ := not_or.1 hx
          exact .inl ⟨hp, not_not.1 hs, not_not.1 ha, rfl⟩
      · next hp => cases h; exact .inr ⟨hp, rfl⟩

end

/-- Settles O2: clause by clause, the checks in the order of R56 with each field read as its number. -/
theorem decodeFollowsFieldsInOrder : Obligations.DecodeFollowsFieldsInOrder := by
  intro w
  refine ⟨decodeWord_of_opc_ge, fun ho hr => ?_, fun ho hr hp hx => ?_, fun ho hr hp hs ha => ?_,
    fun ho hr hp => ?_⟩
  all_goals obtain ⟨m, hm, hop⟩ := mnemonic_of_opc_lt ho
  · exact decodeWord_reserved hm (mt rsvField_eq_zero.1 hr)
  · exact decodeWord_nonCanonical hm (rsvField_eq_zero.2 hr) (argpField_eq_zero.2 hp)
      (hx.imp (mt selField_eq_zero.1) (mt addrField_eq_zero.1))
  · exact ⟨m.instr, hop, decodeWord_without_arg hm (rsvField_eq_zero.2 hr) (argpField_eq_zero.2 hp)
      (selField_eq_zero.2 hs) (addrField_eq_zero.2 ha)⟩
  · have hp1 : argpField w ≠ 0 := fun h => by rw [argpField_eq_zero.1 h] at hp; cases hp
    rw [← selField_eq_ofNat, ← addrField_eq_ofNat]
    exact ⟨m.instr, hop, decodeWord_with_arg hm (rsvField_eq_zero.2 hr) hp1⟩

/-! ## Decode and encode -/

/-- Decoding the word of a mnemonic and an argument gives both back (R51). -/
theorem decodeWord_packWord (m : Mnemonic) (arg : Option Argument) :
    decodeWord (packWord m.opc arg) = .ok (m.instr arg) := by
  have hm : mnemonicOf (opcField (packWord m.opc arg)) = some m := by rw [opcField_packWord, mnemonicOf_opc]
  have hr := rsvField_packWord m.opc arg
  cases arg with
  | none =>
    exact decodeWord_without_arg hm hr (argpField_packWord _ none) (selField_packWord _ none)
      (addrField_packWord _ none)
  | some a =>
    have hp : argpField (packWord m.opc (some a)) ≠ 0 := by rw [argpField_packWord]; simp
    rw [decodeWord_with_arg hm hr hp, selField_packWord, addrField_packWord]

/-- A word whose other fields are zero is its OPC packed without an argument (R46). -/
theorem packWord_none_of_fields {w : Word} (hr : rsvField w = 0) (hp : argpField w = 0) (hs : selField w = 0)
    (ha : addrField w = 0) : packWord (opcField w) none = w := by
  rw [rsvField_eq_zero] at hr
  rw [argpField_eq_zero] at hp
  rw [selField_eq_zero] at hs
  rw [addrField_eq_zero] at ha
  apply BitVec.eq_of_toNat_eq
  rw [packWord_none_toNat, opcField_toNat]
  omega

/-- A word with RSV = 0 and ARGP = 1 is its OPC packed with its SEL and ADDR (R46). -/
theorem packWord_some_of_fields {w : Word} (hr : rsvField w = 0) (hp : argpField w ≠ 0) :
    packWord (opcField w) (some ⟨selField w, addrField w⟩) = w := by
  rw [rsvField_eq_zero] at hr
  rw [Ne, argpField_eq_zero] at hp
  apply BitVec.eq_of_toNat_eq
  rw [packWord_some_toNat, opcField_toNat, selField_toNat, addrField_toNat]
  omega

theorem encode_instr (m : Mnemonic) (arg : Option Argument) : encode (m.instr arg) = packWord m.opc arg := by
  rw [encode, Mnemonic.instr_mnemonic, Mnemonic.instr_arg]

theorem decodeWord_encode (i : Instr) : decodeWord (encode i) = .ok i := by
  rw [encode, decodeWord_packWord, Instr.mnemonic_instr]

/-- An accepted word is the word of the instruction it decodes to. -/
theorem encode_of_decodeWord {w : Word} {i : Instr} (h : decodeWord w = .ok i) : encode i = w := by
  obtain ⟨m, hm, hr, ⟨hp, hs, ha, rfl⟩ | ⟨hp, rfl⟩⟩ := decodeWord_ok_cases h
  · rw [encode_instr, opc_of_mnemonicOf hm, packWord_none_of_fields hr hp hs ha]
  · rw [encode_instr, opc_of_mnemonicOf hm, packWord_some_of_fields hr hp]

/-- Settles O1: the fields of a packed word give its parts back, and an accepted word is packed from its fields. -/
theorem decodeEncodeRoundTrip : Obligations.DecodeEncodeRoundTrip :=
  ⟨decodeWord_encode, fun _ _ => encode_of_decodeWord⟩

/-! ## Lines of text -/

/-- The address of a line, clamped to 0xFFFF (R57). -/
theorem ofNat_min_addr (hex : Nat) :
    BitVec.ofNat 16 (min hex 0xFFFF) = if hex ≤ 0xFFFF then BitVec.ofNat 16 hex else 0xFFFF := by
  split
  · next h => rw [Nat.min_eq_left h]
  · next h => rw [Nat.min_eq_right (by omega)]; rfl

/-- N is at most 0xFFFE, so 0xFFFF names no cell (R6, R50). -/
theorem not_legalAddress_of_gt {c : Config} (hc : c.wf = true) {a : Nat} (ha : 0xFFFE < a) :
    ¬ Machine.LegalAddress c a := by
  rintro ⟨hle, -⟩
  obtain ⟨-, hn, -⟩ := Machine.config_wf_iff.1 hc
  omega

/-- Settles O4: a line is packed as its mnemonic and argument, and no bank reaches 0xFFFF. -/
theorem textAddressIsClampedOutOfBounds : Obligations.TextAddressIsClampedOutOfBounds := by
  refine ⟨fun m letter hex => ?_, fun c hc => not_legalAddress_of_gt hc (by decide)⟩
  rw [← ofNat_min_addr]
  exact decodeWord_packWord m _

/-- The character with an 8-bit code has that code: the codes below 0xD800 are all valid. -/
theorem ofNat_toNat_ofNat_byte (b : Byte) : BitVec.ofNat 8 (Char.ofNat b.toNat).toNat = b := by
  have hvalid : b.toNat.isValidChar := .inl (by omega)
  rw [Char.toNat_ofNat, if_pos hvalid, BitVec.ofNat_toNat, BitVec.setWidth_eq]

/-- An address is never clamped. -/
theorem ofNat_min_toNat (a : Addr) : BitVec.ofNat 16 (min a.toNat 0xFFFF) = a := by
  rw [Nat.min_eq_left (by omega), BitVec.ofNat_toNat, BitVec.setWidth_eq]

/-- Settles O5: the printed letter has the code SEL, and the printed address is in range. -/
theorem printedInstructionAssemblesBack : Obligations.PrintedInstructionAssemblesBack := by
  intro i
  rw [encode, assembleLine, printLine]
  cases i.arg with
  | none => rfl
  | some a =>
    dsimp only [Option.map_some]
    rw [ofNat_toNat_ofNat_byte, ofNat_min_toNat]

/-- Settles O3: ten fixed words, each computed. -/
theorem exampleLinesEncodeAndDecode : Obligations.ExampleLinesEncodeAndDecode := by
  unfold Obligations.ExampleLinesEncodeAndDecode
  decide

end Sys2Proof
end

section
/-! PROOFS. The family 40_sequencer.md: the step and its checks in order (R61 to R65), MODE along steps (R66, R67), SCAN
as a repeated step that ends (R68, R69), END (R70), the commands in UNLOADED and HALTED (R71, R72), and the invariant
along every sequence of commands. -/

namespace Sys2Proof.Machine

/-! ## SCAN in the three engine states -/

theorem command_scan_of_unloaded {s : State} (hu : s.engine = .unloaded) :
    command .scan s = .next (s, .notLoaded) := by
  rw [command, hu]

theorem command_scan_of_halted {s : State} (hh : s.engine = .halted) :
    command .scan s = .next (s, .fault s.fcode s.findex s.fword) := by
  rw [command, hh]
  rfl

theorem command_scan_of_ready {s : State} (hr : s.engine = .ready) : command .scan s = scanSteps s.progLen 0 s := by
  rw [command, hr]

/-! ## SCAN as a repeated step -/

/-- After each of the first `m` steps from `s`, the first one included, a SCAN goes on: PC is not 0 and the block is
READY (R68). -/
def State.GoesOn (s : State) (m : Nat) : Prop :=
  ∀ j, 0 < j → j ≤ m → ∃ u : State, stepTimes j s = .next u ∧ u.pc ≠ 0 ∧ u.engine = .ready

theorem State.goesOn_zero (s : State) : s.GoesOn 0 := fun j hpos hle => by omega

/-- One step that does not end the SCAN, before `m` that do not. -/
theorem State.GoesOn.cons {s u : State} {m : Nat} (hu : step s = .next u) (h0 : u.pc ≠ 0) (hr : u.engine = .ready)
    (h : u.GoesOn m) : s.GoesOn (m + 1) := by
  intro j hpos hle
  obtain ⟨i, rfl⟩ := Nat.exists_eq_add_of_le' hpos
  rw [stepTimes_succ hu]
  rcases Nat.eq_zero_or_pos i with rfl | hi
  · exact ⟨u, rfl, h0, hr⟩
  · exact h i hi (by omega)

/-- How a SCAN ends that `n` steps have brought to `t` with the answer `r`: at a scan boundary, or in the fault that the
last step took (R68). -/
def ScanEnds (n : Nat) (t : State) (r : Response) : Prop :=
  (r = .done n ∧ t.pc = 0 ∧ t.engine = .ready) ∨ (r = t.faultResponse ∧ t.engine = .halted)

/-- A step in READY leaves the block READY or HALTED. -/
theorem step_ready_of_not_halted {s t : State} (hr : s.engine = .ready) (h : step s = .next t)
    (hn : t.engine ≠ .halted) : t.engine = .ready := by
  obtain ⟨-, -, -, -, -, ⟨hh, -⟩ | ⟨hready, -⟩⟩ := step_ready_cases hr h
  · exact absurd hh hn
  · exact hready

/-- The steps of an answered SCAN, by induction on its fuel: `m` that go on, and one that ends it (R68). -/
theorem scanSteps_run {fuel k : Nat} {s t : State} {r : Response} (hr : s.engine = .ready)
    (h : scanSteps fuel k s = .next (t, r)) :
    ∃ m, stepTimes (m + 1) s = .next t ∧ s.GoesOn m ∧ ScanEnds (k + (m + 1)) t r := by
  induction fuel generalizing k s with
  | zero => cases h
  | succ fuel ih =>
    obtain ⟨u, hu, ⟨hh, rfl, hresp⟩ | ⟨hn, h0, rfl, hresp⟩ | ⟨hn, h0, hrest⟩⟩ := scanSteps_cases h
    · exact ⟨0, stepTimes_succ hu, s.goesOn_zero, .inr ⟨hresp, hh⟩⟩
    · exact ⟨0, stepTimes_succ hu, s.goesOn_zero, .inl ⟨hresp, h0, step_ready_of_not_halted hr hu hn⟩⟩
    · have hur := step_ready_of_not_halted hr hu hn
      obtain ⟨m, hsteps, hon, hends⟩ := ih hur hrest
      refine ⟨m + 1, (stepTimes_succ hu).trans hsteps, hon.cons hu h0 hur, ?_⟩
      rwa [Nat.add_right_comm, Nat.add_assoc] at hends

/-- An answered SCAN in READY is one or more steps, all but the last of which go on (R68). -/
theorem command_scan_run {s t : State} {r : Response} (hr : s.engine = .ready)
    (h : command .scan s = .next (t, r)) :
    ∃ m, stepTimes (m + 1) s = .next t ∧ s.GoesOn m ∧ ScanEnds (m + 1) t r := by
  rw [command_scan_of_ready hr] at h
  obtain ⟨m, hsteps, hon, hends⟩ := scanSteps_run hr h
  exact ⟨m, hsteps, hon, Nat.zero_add (m + 1) ▸ hends⟩

/-- Settles O43: the steps of a SCAN go on until the last, and DONE or a fault says how that one ended it. -/
theorem scanIsRepeatedStep : Obligations.ScanIsRepeatedStep := by
  refine ⟨fun s => command_scan_of_unloaded, fun s => command_scan_of_halted, fun s t hr => ⟨fun k h => ?_,
    fun code i w h => ?_⟩⟩
  · obtain ⟨m, hsteps, hon, ⟨hk, h0, htr⟩ | ⟨hfault, -⟩⟩ := command_scan_run hr h
    · cases hk
      exact ⟨Nat.le_add_left 1 m, hsteps, h0, htr, fun j hpos hlt => hon j hpos (Nat.le_of_lt_succ hlt)⟩
    · cases hfault
  · obtain ⟨m, hsteps, hon, ⟨hdone, -⟩ | ⟨hfault, hh⟩⟩ := command_scan_run hr h
    · cases hdone
    · cases hfault
      exact ⟨hh, rfl, rfl, rfl, m, hsteps, hon⟩

/-! ## The bound of a SCAN -/

/-- While a SCAN goes on, each step moves PC on by one, within the program (R69). -/
theorem State.GoesOn.pc_eq {s : State} {m : Nat} (hs : s.Inv) (hr : s.engine = .ready) (h : s.GoesOn m) :
    ∃ u, stepTimes m s = .next u ∧ u.pc = s.pc + m ∧ u.pc < s.prog.length := by
  induction m with
  | zero => exact ⟨s, rfl, rfl, (hs.program (by simp [hr])).2.2⟩
  | succ m ih =>
    obtain ⟨u, hu, hpc, hlt⟩ := ih fun j hpos hle => h j hpos (Nat.le_succ_of_le hle)
    obtain ⟨v, hv, h0, hvr⟩ := h (m + 1) (Nat.succ_pos m) (Nat.le_refl _)
    have hstep : step u = .next v := stepTimes_snoc hu ▸ hv
    obtain ⟨-, hprog, -, -⟩ := stepTimes_sameLoad hu
    rw [← hprog] at hlt ⊢
    obtain ⟨hn, rfl⟩ | ⟨hur, -⟩ := step_cases hstep
    · exact absurd hvr hn
    · obtain ⟨-, i, -, -, -, ⟨hh, -⟩ | ⟨-, hcomp⟩⟩ := step_ready_cases hur hstep
      · simp [hvr] at hh
      · refine ⟨v, hv, ?_, hcomp.pc_lt hlt⟩
        rw [hcomp.pc_eq_succ hlt h0, hpc, Nat.add_assoc]

/-- Settles O44: SCAN is answered, and the steps that go on fit the rest of the program. -/
theorem everyScanEnds : Obligations.EveryScanEnds := by
  intro s hs hr
  obtain ⟨t, r, h⟩ := command_answers .scan hs
  obtain ⟨m, hsteps, hon, hends⟩ := command_scan_run hr h
  obtain ⟨u, -, hpc, hlt⟩ := hon.pc_eq hs hr
  exact ⟨t, r, m + 1, h, Nat.le_add_left 1 m, by omega, hsteps, hends⟩

/-! ## The invariant along a sequence of commands -/

/-- A sequence of commands that is answered: its first command, then the rest. -/
theorem commands_cons {c : Command} {rest : List Command} {s t : State} {rs : List Response}
    (h : commands (c :: rest) s = .next (t, rs)) :
    ∃ u r rs', command c s = .next (u, r) ∧ commands rest u = .next (t, rs') ∧ rs = r :: rs' := by
  rw [commands] at h
  split at h
  · next u r hc =>
    split at h
    · next v rs' hrest => cases h; exact ⟨u, r, rs', hc, hrest, rfl⟩
    · cases h
    · cases h
  · cases h
  · cases h

/-- Settles O51: by induction on the commands, each of which keeps the invariant. -/
theorem commandsKeepTheInvariant : Obligations.CommandsKeepTheInvariant := by
  intro cs
  induction cs with
  | nil => intro s t rs hs h; cases h; exact hs
  | cons c rest ih =>
    intro s t rs hs h
    obtain ⟨u, r, rs', hc, hrest, -⟩ := commands_cons h
    exact ih u t rs' (command_inv hs hc) hrest

/-! ## The fetch and the advance of PC -/

/-- Settles O7: the fetch reads the word at PC and decodes it. -/
theorem stepRunsDecodedInstruction : Obligations.StepRunsDecodedInstruction := by
  intro s w i hr hw hd
  have hfetch : s.fetchInstr = .ok i := by
    unfold State.fetchInstr
    rw [State.fetch_eq, hw]
    dsimp only
    rw [hd]
  unfold step
  rw [hr]
  dsimp only
  rw [hfetch]

/-- END without an argument completes with PC = 0 (R70). -/
theorem exec_endScan_none {s : State} {w : Word} (hw : s.prog[s.pc]? = some w) :
    exec (.endScan none) s = .next (s.completed 0 s.stk) := by
  rw [← toggle_advance_zero]
  exact stepBody_ok (execute := endBody none) hw rfl

/-- END with an argument takes ARG_SHAPE (R64, R70). -/
theorem exec_endScan_some {s : State} {w : Word} (hw : s.prog[s.pc]? = some w) (a : Argument) :
    exec (.endScan (some a)) s = .next (s.faulted .argShape w) :=
  stepBody_error (execute := endBody (some a)) hw rfl

/-- An instruction leaves PC at 0 if it is END without an argument, and otherwise at `(ipc + 1) mod L`, also where it
faults (R62, R86). -/
theorem exec_pc {i : Instr} {s t : State} (h : exec i s = .next t) :
    t.pc = if i = .endScan none then 0 else s.nextPc := by
  obtain ⟨w, hw, hcases⟩ := exec_cases h
  by_cases hi : i = .endScan none
  · subst hi
    rw [exec_endScan_none hw] at h
    cases h
    rfl
  · obtain ⟨code, -, rfl⟩ | hcomp := hcases
    · exact (if_neg hi).symm
    · obtain ⟨-, -, -, -, -, -, -, -, -, hpc⟩ := hcomp.frame
      exact hpc

/-- Settles O8: the step is answered, so it fetched and decoded a word, and its instruction left that PC. -/
theorem fetchExistsAndPcAdvances : Obligations.FetchExistsAndPcAdvances := by
  intro s hs hr
  obtain ⟨t, ht⟩ := step_answers hs
  obtain ⟨w, i, hw, hd, hexec, -⟩ := step_ready_cases hr ht
  exact ⟨w, i, t, hw, hd, ht, exec_pc hexec⟩

/-- The word of END is 0 (R70). -/
theorem decodeWord_zero : decodeWord 0 = .ok (.endScan none) := decodeWord_encode (.endScan none)

/-- Settles O9: END at index `e` takes PC to 0, and any instruction before it moves PC on by at most one. -/
theorem endResetsThePc : Obligations.EndResetsThePc := by
  refine ⟨by decide, fun s w hw => ⟨exec_endScan_none hw, exec_endScan_some hw⟩, fun s t e _ hr hle he h => ?_⟩
  obtain ⟨w, i, hw, hd, hexec, -⟩ := step_ready_cases hr h
  have hpc := exec_pc hexec
  rcases Nat.eq_or_lt_of_le hle with rfl | hlt
  · obtain rfl : w = 0 := Option.some.inj (hw.symm.trans he)
    obtain rfl : i = .endScan none := Except.ok.inj (hd.symm.trans decodeWord_zero)
    rw [hpc]
    exact Nat.zero_le _
  · have hnext : s.nextPc ≤ s.pc + 1 := Nat.mod_le _ _
    split at hpc <;> omega

/-! ## The checks of an instruction, in order -/

/-- The `Execute` body of an instruction: what its step runs between the advance of PC and the flip of MODE (R61). -/
def executeBody : Instr → State → Body
  | .endScan arg => endBody arg
  | .ld arg => loadCell (fun v => v) arg
  | .ldnot arg => loadCell (fun v => !v) arg
  | .out arg => storeCell arg
  | .or arg => combineCell (fun v m => v || m) arg
  | .ornot arg => combineCell (fun v m => !(v || m)) arg
  | .and arg => combineCell (fun v m => v && m) arg
  | .andnot arg => combineCell (fun v m => !(v && m)) arg
  | .orstack arg => mergeTop (fun v1 v2 => v1 || v2) arg
  | .andstack arg => mergeTop (fun v1 v2 => v1 && v2) arg

theorem exec_eq_stepBody (i : Instr) (s : State) : exec i s = s.stepBody (executeBody i) := by
  cases i <;> rfl

/-- `t` is in the engine state of `s`, with the same fault record. -/
def State.SameStatus (s t : State) : Prop :=
  t.engine = s.engine ∧ t.fcode = s.fcode ∧ t.findex = s.findex ∧ t.fword = s.fword

section
variable {i : Instr} {s : State}

/-- The wrong argument presence is the first check (R64, R65). -/
theorem executeBody_argShape (h : i.wf = false) : executeBody i s = .error .argShape := by
  cases i with
  | endScan arg | orstack arg | andstack arg =>
    cases arg with
    | none => cases h
    | some a => rfl
  | ld arg | ldnot arg | out arg | or arg | ornot arg | and arg | andnot arg =>
    cases arg with
    | none => rfl
    | some a => cases h

/-- An illegal address is the second check (R65). -/
theorem executeBody_addrBounds {a : Argument} (h : i.wf = true) (ha : i.arg = some a)
    (hill : ¬ LegalAddress s.cfg a.addr.toNat) : executeBody i s = .error .addrBounds := by
  unfold executeBody
  cases i with
  | endScan | orstack | andstack => cases ha; cases h
  | ld | ldnot | out | or | ornot | and | andnot =>
    cases ha
    exact withCell_illegal hill _

end

/-- A depth check that fails raises STACK_DEPTH (R65). -/
theorem withDepth_neg {d : Prop} [Decidable d] (h : ¬ d) (rest : Body) :
    withDepth (decide d) rest = .error .stackDepth := by
  rw [decide_eq_false h]
  rfl

/-- A depth check that passes leaves the rest of the body. -/
theorem withDepth_pos {d : Prop} [Decidable d] (h : d) (rest : Body) : withDepth (decide d) rest = rest := by
  rw [decide_eq_true h]
  rfl

/-- A pop takes the top entry off. -/
theorem withPop_cons {s : State} {v : Bool} {below : List Bool} (h : s.stk = v :: below)
    (rest : Bool → State → Body) : withPop s rest = rest v { s with stk := below } := by
  unfold withPop State.pop
  rw [h]

/-! The bodies at a legal address: the check that fails, and the effect where none does (R65). -/

section
variable {s : State} {a : Argument} (hl : LegalAddress s.cfg a.addr.toNat)
include hl

theorem loadCell_full (f : Bool → Bool) (h : s.sp = s.cfg.smax) :
    loadCell f (some a) s = .error .stackOverflow :=
  (withCell_legal hl _).trans (if_pos h)

theorem loadCell_room (f : Bool → Bool) (h : s.sp ≠ s.cfg.smax) :
    loadCell f (some a) s = .ok (s.push (f (s.memRead a.addr.toNat))) :=
  (withCell_legal hl _).trans (if_neg h)

theorem storeCell_depth (h : s.sp ≠ 1) : storeCell (some a) s = .error .stackDepth :=
  (withCell_legal hl _).trans (withDepth_neg h _)

theorem storeCell_single {v : Bool} (h : s.stk = [v]) :
    storeCell (some a) s = .ok (({ s with stk := [] } : State).memWrite a.addr.toNat v) := by
  have hd : s.sp = 1 := congrArg List.length h
  unfold storeCell
  rw [withCell_legal hl, withDepth_pos hd, withPop_cons h]

theorem combineCell_depth (f : Bool → Bool → Bool) (h : ¬ 1 ≤ s.sp) :
    combineCell f (some a) s = .error .stackDepth :=
  (withCell_legal hl _).trans (withDepth_neg h _)

theorem combineCell_cons (f : Bool → Bool → Bool) {v : Bool} {below : List Bool} (h : s.stk = v :: below) :
    combineCell f (some a) s = .ok { s with stk := f v (s.memRead a.addr.toNat) :: below } := by
  have hd : 1 ≤ s.sp := by rw [State.sp_eq, h]; exact Nat.le_add_left 1 _
  unfold combineCell
  rw [withCell_legal hl, withDepth_pos hd, withPop_cons h]
  rfl

end

theorem mergeTop_depth {s : State} (f : Bool → Bool → Bool) (h : ¬ 2 ≤ s.sp) :
    mergeTop f none s = .error .stackDepth :=
  withDepth_neg h _

theorem mergeTop_cons {s : State} (f : Bool → Bool → Bool) {v1 v2 : Bool} {below : List Bool}
    (h : s.stk = v1 :: v2 :: below) : mergeTop f none s = .ok { s with stk := f v1 v2 :: below } := by
  have hd : 2 ≤ s.sp := by rw [State.sp_eq, h]; exact Nat.le_add_left 2 _
  unfold mergeTop withNoArg
  dsimp only
  rw [withDepth_pos hd, withPop_cons h, withPop_cons rfl]
  rfl

/-- A stack of depth 2 or more has a top and a second entry. -/
theorem stk_of_two_le_sp {s : State} (h : 2 ≤ s.sp) : ∃ v1 v2 below, s.stk = v1 :: v2 :: below := by
  obtain ⟨v1, rest, hs⟩ := List.exists_cons_of_length_pos (Nat.lt_of_lt_of_le Nat.zero_lt_two h)
  rw [State.sp_eq, hs, List.length_cons] at h
  obtain ⟨v2, below, rfl⟩ := List.exists_cons_of_length_pos (Nat.le_of_succ_le_succ h)
  exact ⟨v1, v2, below, hs⟩

section
variable {i : Instr} {s : State} (hwf : i.wf = true) (hleg : ∀ a, i.address = some a → LegalAddress s.cfg a)
include hwf hleg

/-- A wrong depth is the third check (R65). -/
theorem executeBody_stackDepth (hd : ¬ i.DepthOk s.sp) : executeBody i s = .error .stackDepth := by
  unfold executeBody
  cases i with
  | endScan | ld | ldnot => exact absurd trivial hd
  | out arg =>
    cases arg with
    | none => cases hwf
    | some a => exact storeCell_depth (hleg _ rfl) hd
  | or arg | ornot arg | and arg | andnot arg =>
    cases arg with
    | none => cases hwf
    | some a => exact combineCell_depth (hleg _ rfl) _ hd
  | orstack arg | andstack arg =>
    cases arg with
    | none => exact mergeTop_depth _ hd
    | some a => cases hwf

/-- A load on a full stack is the last check (R65). -/
theorem executeBody_stackOverflow (hload : i.IsLoad) (hfull : s.sp = s.cfg.smax) :
    executeBody i s = .error .stackOverflow := by
  unfold executeBody
  obtain ⟨arg, rfl | rfl⟩ := hload
  all_goals
    cases arg with
    | none => cases hwf
    | some a => exact loadCell_full (hleg _ rfl) _ hfull

/-- A body that passes every check completes, with the engine state and the fault record as before (R65). -/
theorem executeBody_completes (hd : i.DepthOk s.sp) (hroom : i.IsLoad → s.sp ≠ s.cfg.smax) :
    ∃ u, executeBody i s = .ok u ∧ s.SameStatus u := by
  unfold executeBody
  cases i with
  | endScan arg =>
    cases arg with
    | none => exact ⟨s.setPc 0, rfl, rfl, rfl, rfl, rfl⟩
    | some a => cases hwf
  | ld arg | ldnot arg =>
    cases arg with
    | none => cases hwf
    | some a => exact ⟨_, loadCell_room (hleg _ rfl) _ (hroom ⟨some a, by simp⟩), rfl, rfl, rfl, rfl⟩
  | out arg =>
    cases arg with
    | none => cases hwf
    | some a =>
      obtain ⟨v, hv⟩ := List.length_eq_one_iff.1 hd
      exact ⟨_, storeCell_single (hleg _ rfl) hv, rfl, rfl, rfl, rfl⟩
  | or arg | ornot arg | and arg | andnot arg =>
    cases arg with
    | none => cases hwf
    | some a =>
      obtain ⟨v, below, hv⟩ := List.exists_cons_of_length_pos hd
      exact ⟨_, combineCell_cons (hleg _ rfl) _ hv, rfl, rfl, rfl, rfl⟩
  | orstack arg | andstack arg =>
    cases arg with
    | none =>
      obtain ⟨v1, v2, below, hv⟩ := stk_of_two_le_sp hd
      exact ⟨_, mergeTop_cons _ hv, rfl, rfl, rfl, rfl⟩
    | some a => cases hwf

end

/-- Settles O19: the checks of the body, which runs on the advanced state, with parameters and stack as before. -/
theorem firstFailingCheckIsRaised : Obligations.FirstFailingCheckIsRaised := by
  intro i s w hw
  rw [exec_eq_stepBody]
  refine ⟨fun h => ?_, fun h hill hne => ?_, fun h hleg hd => ?_, fun h hleg hd hload hfull => ?_,
    fun h hleg hd hroom => ?_⟩
  · exact stepBody_error hw (executeBody_argShape h)
  · obtain ⟨a, ha⟩ : ∃ a, i.arg = some a :=
      Option.ne_none_iff_exists'.1 fun hn => hne (congrArg (Option.map _) hn)
    exact stepBody_error hw (executeBody_addrBounds h ha (hill _ (congrArg (Option.map _) ha)))
  · exact stepBody_error hw (executeBody_stackDepth (s := s.advance) h hleg hd)
  · exact stepBody_error hw (executeBody_stackOverflow (s := s.advance) h hleg hload hfull)
  · obtain ⟨u, hu, hstatus⟩ := executeBody_completes (s := s.advance) h hleg hd hroom
    exact ⟨u.toggleMode, stepBody_ok hw hu, hstatus⟩

/-! ## MODE along steps -/

theorem modeAfter_perInstruction {s : State} (h : s.cfg.toggle = .perInstruction) (pc : Nat) :
    s.modeAfter pc = !s.mode :=
  if_pos (.inl h)

theorem modeAfter_perScan {s : State} (h : s.cfg.toggle = .perScan) (pc : Nat) :
    s.modeAfter pc = if pc = 0 then !s.mode else s.mode := by
  simp [State.modeAfter, h]

/-- A step that completes updates MODE for the PC it leaves, and one that faults leaves MODE (R66). -/
theorem step_mode {s t : State} (hr : s.engine = .ready) (h : step s = .next t) :
    (t.engine = .ready → t.mode = s.modeAfter t.pc) ∧ (t.engine = .halted → t.mode = s.mode) := by
  obtain ⟨w, i, -, -, -, ⟨hh, code, -, rfl⟩ | ⟨htr, hcomp⟩⟩ := step_ready_cases hr h
  · exact ⟨nofun, fun _ => rfl⟩
  · obtain ⟨-, -, -, -, -, -, -, -, hmode, -⟩ := hcomp.frame
    exact ⟨fun _ => hmode, fun hh => by simp [htr] at hh⟩

/-- Settles O21: the update of MODE under each policy. -/
theorem completedStepTogglesMode : Obligations.CompletedStepTogglesMode := by
  intro s t hr h
  obtain ⟨hcompletes, hfaults⟩ := step_mode hr h
  refine ⟨fun htr hpol => ?_, fun htr hpol h0 => ?_, fun htr hpol h0 => ?_, hfaults⟩
  · rw [hcompletes htr, modeAfter_perInstruction hpol]
  · rw [hcompletes htr, modeAfter_perScan hpol, if_pos h0]
  · rw [hcompletes htr, modeAfter_perScan hpol, if_neg h0]

/-- A run of `n` steps as `n` steps from its first state. -/
theorem Run.stepTimes_eq {tr : Nat → State} {n : Nat} (h : Run tr n) : stepTimes n (tr 0) = .next (tr n) := by
  induction n with
  | zero => rfl
  | succ n ih => exact (stepTimes_snoc (ih (h.take (Nat.le_succ n)))).trans (h.1 n (Nat.lt_succ_self n))

/-- The last step of a run updates MODE for the PC it leaves (R66). -/
theorem Run.mode_succ {tr : Nat → State} {n : Nat} (h : Run tr (n + 1)) :
    (tr (n + 1)).mode = (tr n).modeAfter (tr (n + 1)).pc :=
  (step_mode (h.2 n (Nat.le_succ n)) (h.1 n (Nat.lt_succ_self n))).1 (h.2 (n + 1) (Nat.le_refl _))

/-- One more completed step or boundary flips the parity. -/
theorem decide_odd_succ (n : Nat) : decide ((n + 1) % 2 = 1) = !decide (n % 2 = 1) := by
  rw [← decide_not, decide_eq_decide]
  omega

/-- Settles O22: by induction on the run, each step flipping MODE or not as the policy says. -/
theorem modeIsStepParity : Obligations.ModeIsStepParity := by
  intro tr n hrun h0
  induction n with
  | zero => exact ⟨fun _ => h0, fun _ => h0⟩
  | succ n ih =>
    have hprev : Run tr n := hrun.take (Nat.le_succ n)
    obtain ⟨hcfg, -⟩ := stepTimes_sameLoad hprev.stepTimes_eq
    obtain ⟨hinstr, hscan⟩ := ih hprev
    rw [hrun.mode_succ]
    refine ⟨fun hpol => ?_, fun hpol => ?_⟩
    · rw [modeAfter_perInstruction (by rw [hcfg, hpol]), hinstr hpol, decide_odd_succ]
    · rw [modeAfter_perScan (by rw [hcfg, hpol]), boundaries_succ, hscan hpol]
      split
      · exact (decide_odd_succ _).symm
      · rfl

/-! ## The commands in UNLOADED and HALTED -/

/-- Settles O40: command by command. -/
theorem unloadedAcceptsConstructAndReadreg : Obligations.UnloadedAcceptsConstructAndReadreg := by
  intro s hu
  refine ⟨?_, command_scan_of_unloaded hu, fun a => ?_, ?_, fun words pa pb hL hmax hwords => ?_, fun r hr => ?_⟩
  · rw [command, hu]
  · rw [command, readCell_of_unloaded a hu]
  · rw [command, if_pos hu]
  · have hrej : rejection s.cfg words = none := rejection_none_iff.2 ⟨hL, hmax, hwords⟩
    obtain ⟨code, i, hsome, -⟩ | ⟨-, hc⟩ := construct_cases s words pa pb
    · simp [hrej] at hsome
    · exact ⟨_, by rw [command, hc], rfl⟩
  · rw [command, readReg_of_unloaded hr hu]

/-- A step in HALTED changes nothing (R71). -/
theorem step_of_halted {s : State} (hh : s.engine = .halted) : step s = .next s := by
  rw [step, hh]

theorem command_step_of_halted {s : State} (hh : s.engine = .halted) :
    command .step s = .next (s, .fault s.fcode s.findex s.fword) := by
  rw [command, hh]
  rfl

/-- Settles O41: command by command, in HALTED only RESET and a CONSTRUCT that answers OK change any state. -/
theorem haltedExecutesNothing : Obligations.HaltedExecutesNothing := by
  intro s hh
  refine ⟨step_of_halted hh, command_step_of_halted hh, command_scan_of_halted hh, fun c t r h hne => ?_⟩
  cases c with
  | construct words pa pb =>
    obtain ⟨code, i, -, hc⟩ | ⟨-, hc⟩ := construct_cases s words pa pb
    · rw [command, hc] at h; cases h; exact absurd hh hne
    · rw [command, hc] at h; cases h; exact .inr ⟨words, pa, pb, rfl, rfl⟩
  | reset => exact .inl rfl
  | step => rw [command_step_of_halted hh] at h; cases h; exact absurd hh hne
  | scan => rw [command_scan_of_halted hh] at h; cases h; exact absurd hh hne
  | read a => cases h; exact absurd hh hne
  | readReg q => cases h; exact absurd hh hne

end Sys2Proof.Machine
end

section
/-! PROOFS. The family 41_load_store.md: LD, LDNOT and OUT, each with its faults in their order, its effect, its frame
and its encoding (R74 to R76). -/

namespace Sys2Proof.Machine

/-! ## What the instructions with an argument share -/

/-- The number of the word of an instruction with an argument: its mnemonic's OPC, ARGP = 1, SEL and ADDR (R46). -/
theorem encode_instr_some_toNat (m : Mnemonic) (a : Argument) :
    (encode (m.instr (some a))).toNat = argWord m.opc.toNat a := by
  rw [encode_instr, packWord_some_toNat, argWord]

section
variable {i : Instr} {s : State} {w : Word} (hw : s.prog[s.pc]? = some w)
include hw

/-- The wrong argument presence takes ARG_SHAPE (R64). -/
theorem exec_argShape (h : i.wf = false) : exec i s = .next (s.faulted .argShape w) :=
  (exec_eq_stepBody i s).trans (stepBody_error hw (executeBody_argShape h))

/-- An illegal address takes ADDR_BOUNDS (R65). -/
theorem exec_addrBounds {a : Argument} (hwf : i.wf = true) (ha : i.arg = some a)
    (hill : ¬ LegalAddress s.cfg a.addr.toNat) : exec i s = .next (s.faulted .addrBounds w) :=
  (exec_eq_stepBody i s).trans (stepBody_error hw (executeBody_addrBounds hwf ha hill))

end

/-! ## The step of a load and of OUT at a legal address -/

section
variable {s : State} {w : Word} {a : Argument} (hw : s.prog[s.pc]? = some w) (hl : LegalAddress s.cfg a.addr.toNat)
include hw hl

/-- A load on a full stack takes STACK_OVERFLOW (R74, R75). -/
theorem stepBody_loadCell_full (f : Bool → Bool) (hfull : s.sp = s.cfg.smax) :
    s.stepBody (loadCell f (some a)) = .next (s.faulted .stackOverflow w) :=
  stepBody_error hw (loadCell_full (s := s.advance) hl f hfull)

/-- A load with room on the stack pushes what it makes of the read bank's cell (R74, R75). -/
theorem stepBody_loadCell_room (f : Bool → Bool) (hroom : s.sp ≠ s.cfg.smax) :
    s.stepBody (loadCell f (some a)) =
      .next (s.completed s.nextPc (f (Bank.read s.readBank a.addr.toNat) :: s.stk)) := by
  rw [stepBody_ok hw (loadCell_room (s := s.advance) hl f hroom), State.memRead_eq, ← toggle_advance_stk]
  rfl

/-- OUT takes STACK_DEPTH unless the stack holds exactly one value (R76). -/
theorem stepBody_storeCell_depth (hd : s.sp ≠ 1) :
    s.stepBody (storeCell (some a)) = .next (s.faulted .stackDepth w) :=
  stepBody_error hw (storeCell_depth (s := s.advance) hl hd)

/-- OUT pops the one value and stores it in the write bank (R76). -/
theorem stepBody_storeCell_single {v : Bool} (hs : s.stk = [v]) :
    s.stepBody (storeCell (some a)) = .next (s.stored a.addr.toNat v) := by
  rw [stepBody_ok hw (storeCell_single (s := s.advance) hl hs), toggle_advance_store]

end

/-- Settles O10: a load that pushes the cell's value. -/
theorem ldPushesTheCell : Obligations.LdPushesTheCell :=
  ⟨encode_instr_some_toNat .ld, fun _ _ hw =>
    ⟨exec_argShape hw rfl, fun _ => exec_addrBounds hw rfl rfl,
      fun _ hl => stepBody_loadCell_full hw hl _, fun _ hl => stepBody_loadCell_room hw hl _⟩⟩

/-- Settles O11: a load that pushes the complement of the cell's value. -/
theorem ldnotPushesTheComplement : Obligations.LdnotPushesTheComplement :=
  ⟨encode_instr_some_toNat .ldnot, fun _ _ hw =>
    ⟨exec_argShape hw rfl, fun _ => exec_addrBounds hw rfl rfl,
      fun _ hl => stepBody_loadCell_full hw hl _, fun _ hl => stepBody_loadCell_room hw hl _⟩⟩

/-- Settles O12: the checks of OUT, then the store. -/
theorem outWritesTheCell : Obligations.OutWritesTheCell :=
  ⟨encode_instr_some_toNat .out, fun _ _ hw =>
    ⟨exec_argShape hw rfl, fun _ => exec_addrBounds hw rfl rfl,
      fun _ hl => stepBody_storeCell_depth hw hl, fun _ _ hl => stepBody_storeCell_single hw hl⟩⟩

/-! ## The frame of OUT -/

/-- An OUT that completes found exactly one value and stored it (R76). -/
theorem Completes.eq_stored {a : Argument} {s t : State} (h : Completes (.out (some a)) s t) :
    ∃ v, s.stk = [v] ∧ t = s.stored a.addr.toNat v := by
  cases h with
  | atEnd hi => cases hi
  | store b v hi _ hs ht => cases hi; exact ⟨v, hs, ht⟩
  | value v popped below _ hout => exact absurd rfl (hout (some a))

/-- Settles O24: where OUT completes, the banks are those that MemWrite of the one value leaves, so one cell of the
write bank changed (R31); where it faults, no bank did. -/
theorem outStoresOnlyItsCell : Obligations.OutStoresOnlyItsCell := by
  intro s t a hs hr h
  obtain ⟨hcfg, hprog, hpa, hpb⟩ := exec_sameLoad h
  refine ⟨fun htr v x hv => ?_, fun hth x => ?_, hprog, hpa, hpb, hcfg⟩
  all_goals obtain ⟨w, -, ⟨code, -, rfl⟩ | hcomp⟩ := exec_cases h
  · cases htr
  · obtain ⟨v', hstk, rfl⟩ := hcomp.eq_stored
    obtain rfl : v' = v := by simpa [hstk] using hv
    obtain ⟨hcell, hread, -⟩ := memWriteChangesOneCell s a.addr.toNat v' hs.memory_wf
    exact ⟨hcell x, congrArg (Bank.read · x) hread⟩
  · exact ⟨rfl, rfl⟩
  · obtain ⟨-, heng, -⟩ := hcomp.frame
    exact absurd (hth.symm.trans (heng.trans hr)) nofun

end Sys2Proof.Machine
end

section
/-! PROOFS. The family 42_logic_mem.md: OR, ORNOT, AND and ANDNOT, each with its faults in their order, its effect, its
frame and its encoding (R77 to R81). -/

namespace Sys2Proof.Machine

/-! ## The step of a combining instruction at a legal address -/

section
variable {s : State} {w : Word} {a : Argument} (hw : s.prog[s.pc]? = some w) (hl : LegalAddress s.cfg a.addr.toNat)
include hw hl

/-- Combining takes STACK_DEPTH on an empty stack (R78 to R81). -/
theorem stepBody_combineCell_nil (f : Bool → Bool → Bool) (hs : s.stk = []) :
    s.stepBody (combineCell f (some a)) = .next (s.faulted .stackDepth w) := by
  have hd : ¬ 1 ≤ s.sp := by simp [State.sp_eq, hs]
  exact stepBody_error hw (combineCell_depth (s := s.advance) hl f hd)

/-- Combining replaces the top by what it makes of it and the read bank's cell, and keeps the entries below
(R78 to R81). -/
theorem stepBody_combineCell_cons (f : Bool → Bool → Bool) {v : Bool} {below : List Bool} (hs : s.stk = v :: below) :
    s.stepBody (combineCell f (some a)) =
      .next (s.completed s.nextPc (f v (Bank.read s.readBank a.addr.toNat) :: below)) := by
  rw [stepBody_ok hw (combineCell_cons (s := s.advance) hl f hs), State.memRead_eq, ← toggle_advance_stk]
  rfl

end

/-- Settles O13: the top is combined with the cell by or. -/
theorem orCombinesTopWithCell : Obligations.OrCombinesTopWithCell :=
  ⟨encode_instr_some_toNat .or, fun _ _ hw =>
    ⟨exec_argShape hw rfl, fun _ => exec_addrBounds hw rfl rfl,
      fun _ hl => stepBody_combineCell_nil hw hl _, fun _ _ _ hl => stepBody_combineCell_cons hw hl _⟩⟩

/-- Settles O14: the top is combined with the cell by nor. -/
theorem ornotCombinesTopWithCell : Obligations.OrnotCombinesTopWithCell :=
  ⟨encode_instr_some_toNat .ornot, fun _ _ hw =>
    ⟨exec_argShape hw rfl, fun _ => exec_addrBounds hw rfl rfl,
      fun _ hl => stepBody_combineCell_nil hw hl _, fun _ _ _ hl => stepBody_combineCell_cons hw hl _⟩⟩

/-- Settles O15: the top is combined with the cell by and. -/
theorem andCombinesTopWithCell : Obligations.AndCombinesTopWithCell :=
  ⟨encode_instr_some_toNat .and, fun _ _ hw =>
    ⟨exec_argShape hw rfl, fun _ => exec_addrBounds hw rfl rfl,
      fun _ hl => stepBody_combineCell_nil hw hl _, fun _ _ _ hl => stepBody_combineCell_cons hw hl _⟩⟩

/-- Settles O16: the top is combined with the cell by nand. -/
theorem andnotCombinesTopWithCell : Obligations.AndnotCombinesTopWithCell :=
  ⟨encode_instr_some_toNat .andnot, fun _ _ hw =>
    ⟨exec_argShape hw rfl, fun _ => exec_addrBounds hw rfl rfl,
      fun _ hl => stepBody_combineCell_nil hw hl _, fun _ _ _ hl => stepBody_combineCell_cons hw hl _⟩⟩

end Sys2Proof.Machine
end

section
/-! PROOFS. The family 43_logic_stack.md: ORSTACK and ANDSTACK, each with its faults in their order, its effect, its
frame and its encoding (R82, R83). -/

namespace Sys2Proof.Machine

/-! ## The step of a merging instruction without an argument -/

section
variable {s : State} {w : Word} (hw : s.prog[s.pc]? = some w)
include hw

/-- Merging takes STACK_DEPTH on fewer than two entries (R82, R83). -/
theorem stepBody_mergeTop_depth (f : Bool → Bool → Bool) (hd : s.stk.length < 2) :
    s.stepBody (mergeTop f none) = .next (s.faulted .stackDepth w) :=
  stepBody_error hw (mergeTop_depth (s := s.advance) f (Nat.not_le_of_lt hd))

/-- Merging replaces the top two entries by what it makes of them, and keeps the entries below (R82, R83). -/
theorem stepBody_mergeTop_cons (f : Bool → Bool → Bool) {v1 v2 : Bool} {below : List Bool}
    (hs : s.stk = v1 :: v2 :: below) :
    s.stepBody (mergeTop f none) = .next (s.completed s.nextPc (f v1 v2 :: below)) := by
  rw [stepBody_ok hw (mergeTop_cons (s := s.advance) f hs), ← toggle_advance_stk]

end

/-- Settles O17: the top two entries are merged by or. -/
theorem orstackMergesTheTopTwo : Obligations.OrstackMergesTheTopTwo :=
  ⟨by decide, fun _ _ hw =>
    ⟨fun _ => exec_argShape hw rfl, stepBody_mergeTop_depth hw _, fun _ _ _ => stepBody_mergeTop_cons hw _⟩⟩

/-- Settles O18: the top two entries are merged by and. -/
theorem andstackMergesTheTopTwo : Obligations.AndstackMergesTheTopTwo :=
  ⟨by decide, fun _ _ hw =>
    ⟨fun _ => exec_argShape hw rfl, stepBody_mergeTop_depth hw _, fun _ _ _ => stepBody_mergeTop_cons hw _⟩⟩

end Sys2Proof.Machine
end

section
/-! PROOFS. The family 60_exceptions.md: the entry of a fault and what the host is told (R86), the stack effect without
underflow (R85), and the two ways out of HALTED (R89). -/

namespace Sys2Proof.Machine

/-! ## Taking a fault -/

/-- In READY the command STEP is the step, and its answer says whether the step took a fault (R61, R86). -/
theorem command_step_of_ready {s t : State} (hr : s.engine = .ready) (h : step s = .next t) :
    command .step s = .next (t, if t.engine = .halted then t.faultResponse else .ok) := by
  rw [command, hr]
  dsimp only
  rw [h]

/-- Settles O20: a step that ends halted took a fault, and a SCAN that ends halted did not end at a scan boundary. -/
theorem faultEntryIsPrecise : Obligations.FaultEntryIsPrecise := by
  refine ⟨fun s t w hr hw h hh => ?_, fun s t r hr h hh => ?_⟩
  · have hresp := command_step_of_ready hr h
    obtain ⟨w', i, hw', -, -, ⟨-, code, hcode, rfl⟩ | ⟨htr, -⟩⟩ := step_ready_cases hr h
    · obtain rfl : w = w' := Option.some.inj (hw.symm.trans hw')
      exact ⟨hcode, rfl, hresp⟩
    · simp [htr] at hh
  · obtain ⟨m, -, -, ⟨-, -, htr⟩ | ⟨hfault, -⟩⟩ := command_scan_run hr h
    · simp [htr] at hh
    · exact hfault

/-! ## The stack effect of an instruction that completes -/

/-- An instruction that completes finds on top the entries it pops, and exchanges them for the ones it pushes (R85). -/
theorem Completes.stk_eq {i : Instr} {s t : State} (h : Completes i s t) :
    ∃ popped pushed below, s.stk = popped ++ below ∧ t.stk = pushed ++ below ∧
      popped.length = i.pops ∧ pushed.length = i.pushes := by
  cases h with
  | atEnd hi ht => subst hi ht; exact ⟨[], [], s.stk, rfl, rfl, rfl, rfl⟩
  | store a v hi _ hs ht => subst hi ht; exact ⟨[v], [], [], hs, rfl, rfl, rfl⟩
  | value v popped below _ _ hs hpop hpush _ ht =>
    subst ht
    exact ⟨popped, [v], below, hs, rfl, hpop, hpush.symm⟩

/-- Settles O25: the entries below the popped ones are a common tail of the stack before and after. -/
theorem stackChangesOnlyAtTheTop : Obligations.StackChangesOnlyAtTheTop := by
  intro i s t hr h
  obtain ⟨w, -, ⟨code, -, rfl⟩ | hcomp⟩ := exec_cases h
  · exact ⟨nofun, fun _ => rfl⟩
  · obtain ⟨-, htr, -⟩ := hcomp.frame
    refine ⟨fun _ => ?_, fun hh => by simp [htr, hr] at hh⟩
    obtain ⟨popped, pushed, below, hs, ht, hpop, hpush⟩ := hcomp.stk_eq
    rw [hs, ht, ← hpop, ← hpush, List.drop_left, List.drop_left, List.length_append, List.length_append]
    exact ⟨Nat.le_add_right _ _, by omega, rfl⟩

/-! ## The ways out of HALTED -/

/-- In HALTED a command other than RESET and an accepted CONSTRUCT changes nothing, the record included (R71, R89). -/
theorem command_keeps_halted {c : Command} {s t : State} {r : Response} (hh : s.engine = .halted)
    (hreset : c ≠ .reset) (hrej : ∀ words pa pb, c = .construct words pa pb → rejection s.cfg words ≠ none)
    (h : command c s = .next (t, r)) : t = s := by
  cases c with
  | construct words pa pb =>
    obtain ⟨code, i, -, hc⟩ | ⟨hnone, -⟩ := construct_cases s words pa pb
    · rw [command, hc] at h; cases h; rfl
    · exact absurd hnone (hrej words pa pb rfl)
  | reset => exact absurd rfl hreset
  | step => rw [command_step_of_halted hh] at h; cases h; rfl
  | scan => rw [command_scan_of_halted hh] at h; cases h; rfl
  | read a => cases h; rfl
  | readReg q => cases h; rfl

/-- In HALTED a sequence of such commands changes nothing, by induction on it (R89). -/
theorem commands_keep_halted {cs : List Command} {s t : State} {rs : List Response} (hh : s.engine = .halted)
    (hcs : ∀ c ∈ cs, c ≠ .reset ∧ ∀ words pa pb, c = .construct words pa pb → rejection s.cfg words ≠ none)
    (h : commands cs s = .next (t, rs)) : t = s := by
  induction cs generalizing rs with
  | nil => cases h; rfl
  | cons c rest ih =>
    obtain ⟨⟨hreset, hrej⟩, hrest⟩ := List.forall_mem_cons.1 hcs
    obtain ⟨u, r, rs', hc, hgo, -⟩ := commands_cons h
    obtain rfl : u = s := command_keeps_halted hh hreset hrej hc
    exact ih hrest hgo

/-- A CONSTRUCT that answers OK has initialised the block with its program (R100). -/
theorem command_construct_ok {s t : State} {words : List Word} {pa pb : Bank}
    (h : command (.construct words pa pb) s = .next (t, .ok)) :
    t = s.initialise words (Bank.ofPreset (cellCount s.cfg) pa) (Bank.ofPreset (cellCount s.cfg) pb) := by
  obtain ⟨code, i, -, hc⟩ | ⟨-, hc⟩ := construct_cases s words pa pb
  · rw [command, hc] at h; cases h
  · rw [command, hc] at h; cases h; rfl

/-- Settles O42: the other commands keep a halted state, and RESET and CONSTRUCT initialise it. -/
theorem onlyResetOrConstructLeavesHalted : Obligations.OnlyResetOrConstructLeavesHalted := by
  intro s _ hh
  refine ⟨fun cs t rs => commands_keep_halted hh, ⟨s.restart, ?_, rfl, rfl, rfl, rfl, rfl⟩,
    fun words pa pb t h => ?_⟩
  · rw [command, if_neg (by simp [hh])]
  · obtain rfl := command_construct_ok h
    exact ⟨rfl, rfl, rfl, rfl, rfl⟩

end Sys2Proof.Machine
end

section
/-! PROOFS. The family 70_reset_and_hazards.md: the state at power-on (R99), CONSTRUCT and RESET (R100 to R102), the
write that a read sees (R104, R108), and the scan as a fixed number of steps with a fixed stack effect (R105 to R107,
R109). -/

namespace Sys2Proof.Machine

/-! ## Power-on, CONSTRUCT and RESET -/

/-- At power-on every element is empty or zero and no program is loaded, so only the ranges of the parameters are left
to ask for (R6, R99). -/
theorem powerOn_inv {c : Config} (hc : c.wf = true) : (State.powerOn c).Inv where
  cfg_wf := hc
  memory_wf := rfl
  bankA_within := rfl
  bankB_within := rfl
  presetA_within := rfl
  presetB_within := rfl
  depth := Nat.zero_le _
  program := fun h => absurd rfl h
  words := fun h => absurd rfl h
  noRecord := fun _ => ⟨rfl, rfl, rfl⟩
  record := nofun

/-- Settles O49: the default configuration is in range, too. -/
theorem powerOnSatisfiesTheInvariant : Obligations.PowerOnSatisfiesTheInvariant :=
  ⟨fun _ => powerOn_inv, powerOn_inv (by decide)⟩

section
variable {s : State} {words : List Word} {pa pb : Bank}

/-- A CONSTRUCT that passes its checks initialises the block (R100). -/
theorem command_construct_of_accepted (h : rejection s.cfg words = none) :
    command (.construct words pa pb) s =
      .next (s.initialise words (Bank.ofPreset (cellCount s.cfg) pa) (Bank.ofPreset (cellCount s.cfg) pb), .ok) := by
  rw [command, State.construct, h]

/-- A CONSTRUCT that fails a check changes no state (R101). -/
theorem command_construct_of_rejected {code : RejectCode} {i : Nat} (h : rejection s.cfg words = some (code, i)) :
    command (.construct words pa pb) s = .next (s, .reject code i) := by
  rw [command, State.construct, h]

end

/-- Settles O37: the program passes the checks, and each preset is read cell by cell. -/
theorem constructInitialisesEverything : Obligations.ConstructInitialisesEverything := by
  intro s words pa pb hL hmax hwords
  have hacc : rejection s.cfg words = none := rejection_none_iff.2 ⟨hL, hmax, hwords⟩
  exact ⟨_, command_construct_of_accepted hacc, rfl, rfl, rfl, rfl, rfl, rfl, rfl, rfl, rfl, rfl, rfl,
    Bank.read_ofPreset _ pa, Bank.read_ofPreset _ pb⟩

/-- A program too long is rejected at index PMAX, whatever its words are (R101). -/
theorem rejection_tooLong {c : Config} {words : List Word} (h : c.pmax < words.length) :
    rejection c words = some (.tooLong, c.pmax) := by
  rw [rejection, if_neg (by omega), if_pos h]

/-- A program of accepted length is rejected for its first word that does not decode (R101). -/
theorem rejection_word {c : Config} {words : List Word} {i : Nat} {w : Word} {code : RejectCode}
    (hmax : words.length ≤ c.pmax) (hw : words[i]? = some w) (hd : decodeWord w = .error code)
    (hb : ∀ (j : Nat) (u : Word), j < i → words[j]? = some u → accepted u = true) :
    rejection c words = some (code, i) := by
  obtain ⟨hi, -⟩ := List.getElem?_eq_some_iff.1 hw
  rw [rejection, if_neg (by omega), if_neg (by omega), firstRejected_some hw hd hb, Nat.zero_add]

/-- Settles O38: the three checks in their order. -/
theorem constructRejectsInOrder : Obligations.ConstructRejectsInOrder := by
  refine ⟨⟨rfl, rfl, rfl, rfl, rfl⟩, fun s words pa pb => ⟨fun h => ?_, fun _ hlong => ?_,
    fun i w code hmax hw hd hb => ?_⟩⟩
  · subst h; exact command_construct_of_rejected rfl
  · exact command_construct_of_rejected (rejection_tooLong hlong)
  · exact command_construct_of_rejected (rejection_word hmax hw hd hb)

/-- Settles O39: the loaded program passes the checks of CONSTRUCT again, and the presets, canonical and within the
bank, are the images they describe. -/
theorem resetIsReconstruction : Obligations.ResetIsReconstruction := by
  intro s hs
  refine ⟨fun hu => ?_, fun hl => ?_⟩
  · rw [command, if_pos hu]
  · have hreset : command .reset s = .next (s.restart, .ok) := by rw [command, if_neg hl]
    obtain ⟨hL, hmax, -⟩ := hs.program hl
    obtain ⟨-, -, hpa, hpb⟩ := memory_wf_iff.1 hs.memory_wf
    refine ⟨?_, s.restart, hreset, rfl, rfl⟩
    rw [hreset, command_construct_of_accepted (rejection_none_iff.2 ⟨hL, hmax, hs.words hl⟩),
      Bank.ofPreset_of_wf hpa hs.presetA_within, Bank.ofPreset_of_wf hpb hs.presetB_within, State.restart_eq]

/-! ## The address an OUT stores to -/

/-- Only an OUT that carries an address has one to store to (R76). -/
theorem storeAddress_eq_some {i : Instr} {a : Nat} :
    i.storeAddress = some a ↔ ∃ x, i = .out (some x) ∧ x.addr.toNat = a := by
  cases i with
  | out arg => cases arg <;> simp [Instr.storeAddress]
  | endScan | ld | ldnot | or | ornot | and | andnot | orstack | andstack => simp [Instr.storeAddress]

theorem outAddress_of_word {s : State} {w : Word} {i : Instr} (hw : s.prog[s.pc]? = some w)
    (hd : decodeWord w = .ok i) : s.outAddress = i.storeAddress := by
  simp [State.outAddress, State.fetchInstr, State.fetch_eq, hw, hd]

/-- Where the next step stores to `a`, the word at PC is an OUT to `a` (R76). -/
theorem word_of_outAddress {s : State} {a : Nat} (h : s.outAddress = some a) :
    ∃ w x, s.prog[s.pc]? = some w ∧ decodeWord w = .ok (.out (some x)) ∧ x.addr.toNat = a := by
  cases hw : s.prog[s.pc]? with
  | none => simp [State.outAddress, State.fetchInstr, State.fetch_eq, hw] at h
  | some w =>
    cases hd : decodeWord w with
    | error code => simp [State.outAddress, State.fetchInstr, State.fetch_eq, hw, hd] at h
    | ok i =>
      rw [outAddress_of_word hw hd] at h
      obtain ⟨x, rfl, hx⟩ := storeAddress_eq_some.1 h
      exact ⟨w, x, rfl, hd, hx⟩

/-! ## A cell along a step and along a run -/

/-- The bank that MODE = `b` reads (R17, R30). -/
def State.bank (s : State) (b : Bool) : Bank := if b then s.bankB else s.bankA

theorem memRead_eq_bank (s : State) (a : Nat) : s.memRead a = Bank.read (s.bank s.mode) a := s.memRead_eq a

/-- The next step is an OUT to address `a` of the bank that MODE = `b` reads, so it runs with the other MODE (R31). -/
def State.StoresTo (s : State) (b : Bool) (a : Nat) : Prop := s.mode = !b ∧ s.outAddress = some a

/-- A completed OUT changes one cell, in the bank that the other MODE reads (R31, R76). -/
theorem read_stored_bank {s : State} (hwf : Memory.wf s = true) (a : Nat) (v b : Bool) (x : Nat) :
    Bank.read ((s.stored a v).bank b) x = if s.mode = !b ∧ x = a then v else Bank.read (s.bank b) x := by
  obtain ⟨hA, hB, -, -⟩ := memory_wf_iff.1 hwf
  unfold State.stored State.bank
  cases b <;> cases s.mode
  · simp
  · simp [Bank.read_write hA]
  · simp [Bank.read_write hB]
  · simp

/-- A step that leaves the block READY ran in READY and completed its instruction. -/
theorem step_completes {s t : State} (h : step s = .next t) (htr : t.engine = .ready) :
    s.engine = .ready ∧ ∃ w i, s.prog[s.pc]? = some w ∧ decodeWord w = .ok i ∧ Completes i s t := by
  obtain ⟨hn, rfl⟩ | ⟨hr, -⟩ := step_cases h
  · exact absurd htr hn
  · obtain ⟨w, i, hw, hd, -, ⟨hh, -⟩ | ⟨-, hcomp⟩⟩ := step_ready_cases hr h
    · simp [htr] at hh
    · exact ⟨hr, w, i, hw, hd, hcomp⟩

/-- An instruction that completes and stores to a cell leaves there the one value it popped; otherwise the cell is as
before (R31, R33, R76). -/
theorem Completes.cell {s t : State} {w : Word} {i : Instr} (h : Completes i s t) (hwf : Memory.wf s = true)
    (hw : s.prog[s.pc]? = some w) (hd : decodeWord w = .ok i) (b : Bool) (a : Nat) :
    (s.StoresTo b a → s.stk = [Bank.read (t.bank b) a]) ∧
      (¬ s.StoresTo b a → Bank.read (t.bank b) a = Bank.read (s.bank b) a) := by
  unfold State.StoresTo
  rw [outAddress_of_word hw hd]
  cases h with
  | atEnd hi ht => subst hi ht; exact ⟨nofun, fun _ => rfl⟩
  | store x v hi hl hs ht =>
    subst hi ht
    rw [read_stored_bank hwf]
    exact ⟨fun ⟨hm, hx⟩ => by rw [if_pos ⟨hm, (Option.some.inj hx).symm⟩, hs],
      fun hno => if_neg fun ⟨hm, hx⟩ => hno ⟨hm, congrArg some hx.symm⟩⟩
  | value v popped below _ hout _ _ _ _ ht =>
    subst ht
    refine ⟨fun ⟨_, hx⟩ => ?_, fun _ => rfl⟩
    obtain ⟨x, hi, -⟩ := storeAddress_eq_some.1 hx
    exact absurd hi (hout (some x))

section
variable {tr : Nat → State} {m : Nat} (h : Run tr m) (hs : (tr 0).Inv)
include h

/-- Every step of a run completes the instruction at PC. -/
theorem Run.completes {j : Nat} (hj : j < m) : ∃ w i, (tr j).prog[(tr j).pc]? = some w ∧ decodeWord w = .ok i ∧
    Completes i (tr j) (tr (j + 1)) :=
  (step_completes (h.1 j hj) (h.2 (j + 1) hj)).2

theorem Run.sameLoad : (tr 0).SameLoad (tr m) := stepTimes_sameLoad h.stepTimes_eq

include hs

theorem Run.inv : (tr m).Inv := stepTimes_keeps stepKeepsTheInvariant hs h.stepTimes_eq

/-- A cell that no step of a run from step `n` on stores to is kept (R33). -/
theorem Run.cell_kept {n : Nat} {b : Bool} {a : Nat} (hn : n ≤ m)
    (hno : ∀ j, n ≤ j → j < m → ¬ (tr j).StoresTo b a) :
    Bank.read ((tr m).bank b) a = Bank.read ((tr n).bank b) a := by
  induction m, hn using Nat.le_induction with
  | base => rfl
  | succ m hn ih =>
    have hprev : Run tr m := h.take (Nat.le_succ m)
    obtain ⟨w, i, hw, hd, hcomp⟩ := h.completes (Nat.lt_succ_self m)
    obtain ⟨-, hkept⟩ := hcomp.cell (hprev.inv hs).memory_wf hw hd b a
    rw [hkept (hno m hn (Nat.lt_succ_self m)), ih hprev fun j hj hlt => hno j hj (Nat.lt_succ_of_lt hlt)]

/-- The last step of a run that stores to a cell popped the value that stands there at the end (R31, R76). -/
theorem Run.last_store {n : Nat} {b : Bool} {a : Nat} (hn : n < m) (hst : (tr n).StoresTo b a)
    (hno : ∀ j, n < j → j < m → ¬ (tr j).StoresTo b a) : (tr n).stk = [Bank.read ((tr m).bank b) a] := by
  obtain ⟨w, i, hw, hd, hcomp⟩ := h.completes hn
  obtain ⟨hstored, -⟩ := hcomp.cell ((h.take (Nat.le_of_lt hn)).inv hs).memory_wf hw hd b a
  rw [h.cell_kept hs hn hno, hstored hst]

end

/-! ## The write that a read sees -/

/-- MODE along `m` steps is the parity of a count, of steps or of scan boundaries, that has its largest value at the end
(R67). -/
def ModeCount (tr : Nat → State) (m : Nat) (count : Nat → Nat) : Prop :=
  ∀ j ≤ m, (tr j).mode = decide (count j % 2 = 1) ∧ count j ≤ count m

/-- Step `j` stores to the bank that step `m` reads exactly if the counts are an odd distance apart. -/
theorem ModeCount.storesTo_iff {tr : Nat → State} {m j a : Nat} {count : Nat → Nat} (hc : ModeCount tr m count)
    (hj : j ≤ m) : (tr j).StoresTo (tr m).mode a ↔
      (count m - count j) % 2 = 1 ∧ (tr j).outAddress = some a := by
  obtain ⟨hmj, hle⟩ := hc j hj
  obtain ⟨hmm, -⟩ := hc m (Nat.le_refl m)
  unfold State.StoresTo
  rw [hmj, hmm, ← decide_not, decide_eq_decide]
  refine and_congr_left fun _ => ?_
  omega

/-- In a fresh block each bank holds its preset (R100, R102). -/
theorem State.Fresh.bank_eq {s : State} (h : s.Fresh) (n : Nat) :
    s.bank (decide (n % 2 = 1)) = if n % 2 = 0 then s.presetA else s.presetB := by
  obtain ⟨-, -, hA, hB⟩ := h
  unfold State.bank
  rw [hA, hB]
  rcases Nat.mod_two_eq_zero_or_one n with hn | hn <;> simp [hn]

/-- R104 for either policy: a read sees the value of the latest OUT to its address at an odd distance of the count that
MODE follows, and the preset of its bank if there is none. -/
theorem Run.visibility {tr : Nat → State} {m : Nat} (h : Run tr m) (hs : (tr 0).Inv) (hf : (tr 0).Fresh)
    {count : Nat → Nat} (hc : ModeCount tr m count) (a : Nat) :
    (∀ n < m, (count m - count n) % 2 = 1 → (tr n).outAddress = some a →
      (∀ j, n < j → j < m → (count m - count j) % 2 = 1 → (tr j).outAddress ≠ some a) →
      (tr n).stk = [(tr m).memRead a]) ∧
    ((∀ j < m, (count m - count j) % 2 = 1 → (tr j).outAddress ≠ some a) →
      (tr m).memRead a = Bank.read (if count m % 2 = 0 then (tr 0).presetA else (tr 0).presetB) a) := by
  have other {j : Nat} (hj : j < m) (hne : (count m - count j) % 2 = 1 → (tr j).outAddress ≠ some a) :
      ¬ (tr j).StoresTo (tr m).mode a := by
    rw [hc.storesTo_iff (Nat.le_of_lt hj)]
    exact fun ⟨hodd, hout⟩ => hne hodd hout
  rw [memRead_eq_bank]
  refine ⟨fun n hn hodd hout hno => ?_, fun hno => ?_⟩
  · exact h.last_store hs hn ((hc.storesTo_iff (Nat.le_of_lt hn)).2 ⟨hodd, hout⟩)
      fun j hj hlt => other hlt (hno j hj hlt)
  · obtain ⟨hmode, -⟩ := hc m (Nat.le_refl m)
    rw [h.cell_kept hs (Nat.zero_le m) fun j _ hlt => other hlt (hno j hlt), hmode, hf.bank_eq]

/-- Under PER_INSTRUCTION MODE follows the number of steps (R67). -/
theorem Run.modeCount_steps {tr : Nat → State} {m : Nat} (h : Run tr m) (hf : (tr 0).Fresh)
    (hpol : (tr 0).cfg.toggle = .perInstruction) : ModeCount tr m id := by
  obtain ⟨-, hmode, -, -⟩ := hf
  exact fun j hj => ⟨(modeIsStepParity tr j (h.take hj) hmode).1 hpol, hj⟩

/-- Under PER_SCAN MODE follows the number of scan boundaries (R67). -/
theorem Run.modeCount_boundaries {tr : Nat → State} {m : Nat} (h : Run tr m) (hf : (tr 0).Fresh)
    (hpol : (tr 0).cfg.toggle = .perScan) : ModeCount tr m (boundaries tr) := by
  obtain ⟨-, hmode, -, -⟩ := hf
  exact fun j hj => ⟨(modeIsStepParity tr j (h.take hj) hmode).2 hpol, boundaries_mono tr hj⟩

/-- Settles O31: MODE counts steps. -/
theorem visibilityPerInstruction : Obligations.VisibilityPerInstruction :=
  fun _ _ a h hs hf hpol => h.visibility hs hf (h.modeCount_steps hf hpol) a

/-- Settles O32: MODE counts scan boundaries. -/
theorem visibilityPerScan : Obligations.VisibilityPerScan :=
  fun _ _ a h hs hf hpol => h.visibility hs hf (h.modeCount_boundaries hf hpol) a

/-- Settles O33: no step of the run stores to the address, so each bank keeps its cell, and a read sees a preset. -/
theorem unwrittenCellKeepsItsPreset : Obligations.UnwrittenCellKeepsItsPreset := by
  intro tr m a h hs hf hno
  have hout : ∀ j < m, (tr j).outAddress ≠ some a := by
    intro j hj hout
    obtain ⟨-, hprog, -⟩ := (h.take (Nat.le_of_lt hj)).sameLoad
    obtain ⟨w, x, hw, hd, hx⟩ := word_of_outAddress hout
    exact hno w (hprog ▸ List.mem_of_getElem? hw) x hd hx
  have kept (b : Bool) : Bank.read ((tr m).bank b) a = Bank.read ((tr 0).bank b) a :=
    h.cell_kept hs (Nat.zero_le m) fun j _ hj ⟨_, ho⟩ => hout j hj ho
  refine ⟨(kept false).trans ?_, (kept true).trans ?_, fun hpol => ?_⟩
  · exact congrArg (Bank.read · a) (hf.bank_eq 0)
  · exact congrArg (Bank.read · a) (hf.bank_eq 1)
  · exact (visibilityPerInstruction tr m a h hs hf hpol).2 fun j hj _ => hout j hj

/-! ## KSCAN -/

/-- A program that has a word has a scan of at least one step (R105). -/
theorem kscan_pos {prog : List Word} (h : 0 < prog.length) : 0 < kscan prog := by
  unfold kscan
  split
  · exact Nat.succ_pos _
  · exact h

/-- The last index of a scan holds END, or is the last of the program (R105). -/
theorem kscan_last {prog : List Word} {i : Nat} {w : Word} (h : i + 1 = kscan prog) (hw : prog[i]? = some w) :
    holdsEnd w = true ∨ i + 1 = prog.length := by
  unfold kscan at h
  split at h
  · next e he =>
    obtain rfl : i = e := Nat.succ.inj h
    obtain ⟨hlt, hend, -⟩ := List.findIdx?_eq_some_iff_getElem.1 he
    rw [List.getElem?_eq_getElem hlt] at hw
    exact .inl (Option.some.inj hw ▸ hend)
  · exact .inr h

/-- No index of a scan but its last holds END (R105). -/
theorem not_holdsEnd_of_lt_kscan {prog : List Word} {i : Nat} {w : Word} (h : i + 1 < kscan prog)
    (hw : prog[i]? = some w) : holdsEnd w = false := by
  unfold kscan at h
  split at h
  · next e he =>
    obtain ⟨hlt, -, hbefore⟩ := List.findIdx?_eq_some_iff_getElem.1 he
    obtain ⟨hi, rfl⟩ := List.getElem?_eq_some_iff.1 hw
    exact Bool.eq_false_of_not_eq_true (hbefore i (by omega))
  · next hnone => simpa using List.findIdx?_eq_none_iff.1 hnone w (List.mem_of_getElem? hw)

theorem kscan_le_length (prog : List Word) : kscan prog ≤ prog.length := by
  unfold kscan
  split
  · next e he =>
    obtain ⟨hlt, -⟩ := List.findIdx?_eq_some_iff_getElem.1 he
    exact hlt
  · exact Nat.le_refl _

theorem holdsEnd_iff {w : Word} {i : Instr} (hd : decodeWord w = .ok i) :
    holdsEnd w = true ↔ ∃ arg, i = .endScan arg := by
  unfold holdsEnd
  rw [hd]
  cases i <;> simp

/-- An instruction that completes leaves PC at 0 if it is END, and otherwise as the fetch left it (R62, R70). -/
theorem Completes.pc_eq {i : Instr} {s t : State} (h : Completes i s t) :
    t.pc = if i = .endScan none then 0 else s.nextPc := by
  obtain ⟨-, -, -, -, -, -, -, -, -, hpc⟩ := h.frame
  exact hpc

/-- An END that completes carries no argument (R64). -/
theorem Completes.endScan_arg {arg : Option Argument} {s t : State} (h : Completes (.endScan arg) s t) :
    arg = none := by
  cases h with
  | atEnd hi => exact Instr.endScan.inj hi
  | store _ _ hi => cases hi
  | value _ _ _ _ _ _ _ hpush => cases hpush

/-- Within a scan a completed step moves PC on by one, modulo KSCAN: END is at the last index of the scan and nowhere
before it (R63, R70, R105). -/
theorem Completes.pc_eq_mod_kscan {i : Instr} {s t : State} {w : Word} (h : Completes i s t)
    (hw : s.prog[s.pc]? = some w) (hd : decodeWord w = .ok i) (hpc : s.pc < kscan s.prog) :
    t.pc = (s.pc + 1) % kscan s.prog := by
  have hle := kscan_le_length s.prog
  rw [h.pc_eq]
  rcases Nat.eq_or_lt_of_le (Nat.succ_le_of_lt hpc) with hlast | hlt
  · rw [← Nat.succ_eq_add_one, hlast, Nat.mod_self]
    split
    · rfl
    · next hi =>
      rcases kscan_last hlast hw with hend | hlen
      · obtain ⟨arg, rfl⟩ := (holdsEnd_iff hd).1 hend
        exact absurd (congrArg Instr.endScan h.endScan_arg) hi
      · rw [State.nextPc_eq, hlen, Nat.mod_self]
  · have hi : i ≠ .endScan none := fun hi => by
      have hend : holdsEnd w = true := (holdsEnd_iff hd).2 ⟨none, hi⟩
      simp [not_holdsEnd_of_lt_kscan hlt hw] at hend
    rw [if_neg hi, State.nextPc_eq, Nat.mod_eq_of_lt (by omega), Nat.mod_eq_of_lt hlt]

/-- From PC = 0, PC counts the steps of a run modulo KSCAN (R105). -/
theorem Run.pc_eq {tr : Nat → State} {m : Nat} (h : Run tr m) (hs : (tr 0).Inv) (h0 : (tr 0).pc = 0) :
    (tr m).pc = m % kscan (tr 0).prog := by
  induction m with
  | zero => rw [h0, Nat.zero_mod]
  | succ m ih =>
    have hprev : Run tr m := h.take (Nat.le_succ m)
    obtain ⟨-, hprog, -⟩ := hprev.sameLoad
    obtain ⟨w, i, hw, hd, hcomp⟩ := h.completes (Nat.lt_succ_self m)
    obtain ⟨hL, -, -⟩ := (hprev.inv hs).program (by simp [hprev.2 m (Nat.le_refl m)])
    have hK : 0 < kscan (tr m).prog := kscan_pos hL
    have hpc := ih hprev
    rw [← hprog] at hpc ⊢
    rw [hcomp.pc_eq_mod_kscan hw hd (hpc ▸ Nat.mod_lt m hK), hpc, Nat.mod_add_mod]

/-! ## A number of steps as a run -/

/-- The state after `n` steps from `s`, where each is answered. -/
def State.after (s : State) : Nat → State
  | 0 => s
  | n + 1 =>
    match step (s.after n) with
    | .next t => t
    | _ => s.after n

/-- The first of `n + 1` steps that are answered. -/
theorem stepTimes_first {n : Nat} {s t : State} (h : stepTimes (n + 1) s = .next t) :
    ∃ u, step s = .next u ∧ stepTimes n u = .next t := by
  cases hu : step s with
  | next u => exact ⟨u, rfl, stepTimes_succ hu ▸ h⟩
  | fault f => simp [stepTimes, hu] at h
  | refused x => simp [stepTimes, hu] at h

/-- The last of `n + 1` steps that are answered. -/
theorem stepTimes_last {n : Nat} {s t : State} (h : stepTimes (n + 1) s = .next t) :
    ∃ u, stepTimes n s = .next u ∧ step u = .next t := by
  induction n generalizing s with
  | zero => exact ⟨s, rfl, stepTimes_snoc (k := 0) rfl ▸ h⟩
  | succ n ih =>
    obtain ⟨v, hv, hrest⟩ := stepTimes_first h
    obtain ⟨u, hu, hlast⟩ := ih hrest
    exact ⟨u, (stepTimes_succ hv).trans hu, hlast⟩

/-- `m + n` steps: `m` steps, then `n`. -/
theorem stepTimes_add {m : Nat} (n : Nat) {s u : State} (h : stepTimes m s = .next u) :
    stepTimes (m + n) s = stepTimes n u := by
  induction m generalizing s with
  | zero => cases h; rw [Nat.zero_add]
  | succ m ih =>
    obtain ⟨v, hv, hrest⟩ := stepTimes_first h
    rw [Nat.add_right_comm, stepTimes_succ hv, ih hrest]

/-- One more step of a run. -/
theorem Run.snoc {tr : Nat → State} {n : Nat} (h : Run tr n) (hstep : step (tr n) = .next (tr (n + 1)))
    (hr : (tr (n + 1)).engine = .ready) : Run tr (n + 1) := by
  refine ⟨fun j hj => ?_, fun j hj => ?_⟩
  · rcases Nat.lt_succ_iff_lt_or_eq.1 hj with hlt | rfl
    · exact h.1 j hlt
    · exact hstep
  · rcases Nat.le_succ_iff.1 hj with hle | rfl
    · exact h.2 j hle
    · exact hr

/-- Steps that leave the block READY are a run, as nothing but RESET and CONSTRUCT leads out of HALTED (R71). -/
theorem run_after {n : Nat} {s t : State} (h : stepTimes n s = .next t) (htr : t.engine = .ready) :
    Run s.after n ∧ s.after n = t := by
  induction n generalizing t with
  | zero =>
    cases h
    exact ⟨⟨nofun, fun j hj => Nat.le_zero.1 hj ▸ htr⟩, rfl⟩
  | succ n ih =>
    obtain ⟨u, hu, hstep⟩ := stepTimes_last h
    obtain ⟨hur, -⟩ := step_completes hstep htr
    obtain ⟨hrun, hafter⟩ := ih hu hur
    have hlast : s.after (n + 1) = t := by rw [State.after, hafter, hstep]
    exact ⟨hrun.snoc (by rw [hafter, hlast, hstep]) (hlast ▸ htr), hlast⟩

/-- From PC = 0, PC counts the completed steps modulo KSCAN (R105). -/
theorem stepTimes_pc {s t : State} {n : Nat} (hs : s.Inv) (h0 : s.pc = 0) (h : stepTimes n s = .next t)
    (htr : t.engine = .ready) : t.pc = n % kscan s.prog := by
  obtain ⟨hrun, rfl⟩ := run_after h htr
  exact hrun.pc_eq hs h0

/-! ## The length of a scan -/

/-- `s` is at the start of a scan of `prog`: READY, with PC = 0. -/
structure State.AtScanStart (s : State) (prog : List Word) : Prop where
  inv : s.Inv
  ready : s.engine = .ready
  pc : s.pc = 0
  prog : s.prog = prog

theorem State.AtScanStart.kscan_pos {s : State} {prog : List Word} (hs : s.AtScanStart prog) : 0 < kscan prog := by
  obtain ⟨hL, -, -⟩ := hs.inv.program (by simp [hs.ready])
  exact hs.prog ▸ Machine.kscan_pos hL

section
variable {s t : State} {prog : List Word} {k : Nat} (hs : s.AtScanStart prog)
  (h : command .scan s = .next (t, .done k))
include hs h

/-- The steps of a SCAN that ends at a scan boundary (R68). -/
theorem scan_done : 1 ≤ k ∧ stepTimes k s = .next t ∧ t.pc = 0 ∧ t.engine = .ready ∧
    ∀ j, 0 < j → j < k → ∃ u : State, stepTimes j s = .next u ∧ u.pc ≠ 0 ∧ u.engine = .ready :=
  (scanIsRepeatedStep.2.2 s t hs.ready).1 k h

/-- A SCAN that ends at a scan boundary passes through READY before each of its steps (R68). -/
theorem scan_done_passes {i : Nat} (hi : i < k) : ∃ u : State, stepTimes i s = .next u ∧ u.engine = .ready := by
  obtain ⟨-, -, -, -, hon⟩ := scan_done hs h
  rcases Nat.eq_zero_or_pos i with rfl | hpos
  · exact ⟨s, rfl, hs.ready⟩
  · obtain ⟨u, hu, -, hur⟩ := hon i hpos hi
    exact ⟨u, hu, hur⟩

/-- A SCAN that ends at a scan boundary leaves the next scan at its start (R68). -/
theorem scan_done_atScanStart : t.AtScanStart prog := by
  obtain ⟨-, hk, hpc, hready, -⟩ := scan_done hs h
  obtain ⟨-, hprog, -⟩ := stepTimes_sameLoad hk
  exact ⟨command_inv hs.inv h, hready, hpc, hprog.trans hs.prog⟩

/-- A SCAN from PC = 0 that ends at a scan boundary ran KSCAN steps: PC counts them modulo KSCAN, and is 0 after the
last and after none before it (R105). -/
theorem scan_length : k = kscan prog := by
  obtain ⟨hk, hsteps, ht0, htr, hon⟩ := scan_done hs h
  have pc {j : Nat} {u : State} (hu : stepTimes j s = .next u) (hur : u.engine = .ready) : u.pc = j % kscan prog :=
    hs.prog ▸ stepTimes_pc hs.inv hs.pc hu hur
  have hle : kscan prog ≤ k := Nat.le_of_dvd hk (Nat.dvd_of_mod_eq_zero ((pc hsteps htr).symm.trans ht0))
  refine Nat.le_antisymm (Nat.le_of_not_lt fun hlt => ?_) hle
  obtain ⟨u, hu, hne, hur⟩ := hon _ hs.kscan_pos hlt
  exact hne ((pc hu hur).trans (Nat.mod_self _))

end

/-- Settles O45: PC counts steps modulo KSCAN. -/
theorem scanLengthIsKscan : Obligations.ScanLengthIsKscan := by
  refine ⟨fun s t k hs hr h0 h => scan_length ⟨hs, hr, h0, rfl⟩ h, fun tr m h hs h0 => ?_⟩
  have hstart : (tr 0).AtScanStart (tr 0).prog := ⟨hs, h.2 0 (Nat.zero_le m), h0, rfl⟩
  rw [h.pc_eq hs h0]
  exact Nat.mod_lt m hstart.kscan_pos

/-! ## A run of scans -/

section
variable {sc : Nat → State} {steps : Nat → Nat} {n : Nat} (h : ScanRun sc steps n)
include h

theorem ScanRun.take {m : Nat} (hm : m ≤ n) : ScanRun sc steps m := fun j hj => h j (Nat.lt_of_lt_of_le hj hm)

/-- After `n` scans the next one is at its start, `n * KSCAN` steps on (R106). -/
theorem ScanRun.boundary {prog : List Word} (hs : (sc 0).AtScanStart prog) :
    stepTimes (n * kscan prog) (sc 0) = .next (sc n) ∧ (sc n).AtScanStart prog := by
  induction n with
  | zero => exact ⟨by rw [Nat.zero_mul]; rfl, hs⟩
  | succ n ih =>
    obtain ⟨hsteps, hn⟩ := ih (h.take (Nat.le_succ n))
    have hscan := h n (Nat.lt_succ_self n)
    obtain ⟨-, hk, -⟩ := scan_done hn hscan
    rw [scan_length hn hscan] at hk
    exact ⟨by rw [Nat.succ_mul, stepTimes_add _ hsteps, hk], scan_done_atScanStart hn hscan⟩

end

/-- Settles O46: MODE counts the steps from the first scan on, and PC counts them modulo KSCAN. -/
theorem scanParityIsFixedByKscan : Obligations.ScanParityIsFixedByKscan := by
  intro sc steps n h hs ⟨hr, hmode, _, _⟩ h0 hpol j hj i hi
  obtain ⟨hsteps, hstart⟩ := (h.take (Nat.le_of_lt hj)).boundary ⟨hs, hr, h0, rfl⟩
  obtain ⟨u, hu, hur⟩ := scan_done_passes hstart (h j hj) (scan_length hstart (h j hj) ▸ hi)
  have htotal : stepTimes (j * kscan (sc 0).prog + i) (sc 0) = .next u := (stepTimes_add i hsteps).trans hu
  have hpc := stepTimes_pc hs h0 htotal hur
  obtain ⟨hrun, rfl⟩ := run_after htotal hur
  refine ⟨_, hu, ?_, hur, (modeIsStepParity _ _ hrun hmode).1 hpol⟩
  rw [hpc, Nat.mul_add_mod', Nat.mod_eq_of_lt hi]

/-- In a run from PC = 0 the OUT of a step stands at the number of the step modulo KSCAN (R105). -/
theorem Run.out_at {tr : Nat → State} {m a : Nat} (h : Run tr m) (hs : (tr 0).Inv) (h0 : (tr 0).pc = 0)
    (hout : (tr m).outAddress = some a) : ∃ w x, (tr 0).prog[m % kscan (tr 0).prog]? = some w ∧
      decodeWord w = .ok (.out (some x)) ∧ x.addr.toNat = a := by
  obtain ⟨-, hprog, -⟩ := h.sameLoad
  obtain ⟨w, x, hw, hd, hx⟩ := word_of_outAddress hout
  rw [h.pc_eq hs h0, hprog] at hw
  exact ⟨w, x, hw, hd, hx⟩

/-- Settles O47: a boundary is an even number of steps on, so the OUTs that READ sees ran at odd steps, and these are at
odd indices. -/
theorem evenScanHidesOutsAtEvenIndices : Obligations.EvenScanHidesOutsAtEvenIndices := by
  intro sc steps n a h hs hf h0 hpol heven hleg hno j hj
  have ⟨hr, hmode, _, _⟩ := hf
  obtain ⟨hsteps, hstart⟩ := (h.take hj).boundary ⟨hs, hr, h0, rfl⟩
  obtain ⟨hcfg, -⟩ := stepTimes_sameLoad hsteps
  obtain ⟨hrun, hafter⟩ := run_after hsteps hstart.ready
  have hm : j * kscan (sc 0).prog % 2 = 0 := by rw [Nat.mul_mod, heven, Nat.mul_zero]
  have hmodej : (sc j).mode = decide (j * kscan (sc 0).prog % 2 = 1) :=
    hafter ▸ (modeIsStepParity _ _ hrun hmode).1 hpol
  have hread : (sc j).memRead a = Bank.read (sc 0).presetA a := by
    have hsees := (visibilityPerInstruction _ _ a hrun hs hf hpol).2 fun i hi hodd hout => by
      obtain ⟨w, x, hw, hd, hx⟩ := (hrun.take (Nat.le_of_lt hi)).out_at hs h0 hout
      have hindex : i % kscan (sc 0).prog % 2 = i % 2 := Nat.mod_mod_of_dvd i (Nat.dvd_of_mod_eq_zero heven)
      exact hno _ w x (hindex.trans (by omega)) hw hd hx
    rwa [hafter, if_pos hm] at hsees
  obtain ⟨-, -, hanswer⟩ := readReturnsTheReadBankCell (sc j) a
  refine ⟨by rw [hmodej, hm]; rfl, ?_⟩
  rw [hanswer (by simp [hstart.ready]) (hcfg ▸ hleg), ← State.memRead_eq, hread]

/-! ## The stack effect of a scan -/

/-- What an instruction that completes makes of SP (R85). -/
theorem Completes.sp_eq {i : Instr} {s t : State} (h : Completes i s t) : t.sp + i.pops = s.sp + i.pushes := by
  obtain ⟨popped, pushed, below, hs, ht, hpop, hpush⟩ := h.stk_eq
  rw [State.sp_eq, State.sp_eq, hs, ht, List.length_append, List.length_append, hpop, hpush]
  omega

/-- Two runs of the same program from the same PC execute the same instructions, so their PCs stay together and SP
changes by the same amount (R109). -/
theorem Run.lockstep {tr tr' : Nat → State} {m : Nat} (h : Run tr m) (h' : Run tr' m)
    (hprog : (tr' 0).prog = (tr 0).prog) (hpc : (tr' 0).pc = (tr 0).pc) :
    (tr' m).pc = (tr m).pc ∧ (tr m).sp + (tr' 0).sp = (tr' m).sp + (tr 0).sp := by
  induction m with
  | zero => exact ⟨hpc, Nat.add_comm _ _⟩
  | succ m ih =>
    have hprev := h.take (Nat.le_succ m)
    have hprev' := h'.take (Nat.le_succ m)
    obtain ⟨-, hload, -⟩ := hprev.sameLoad
    obtain ⟨-, hload', -⟩ := hprev'.sameLoad
    have hprogm : (tr' m).prog = (tr m).prog := hload'.trans (hprog.trans hload.symm)
    obtain ⟨hpcm, hsp⟩ := ih hprev hprev'
    obtain ⟨w, i, hw, hd, hcomp⟩ := h.completes (Nat.lt_succ_self m)
    obtain ⟨w', i', hw', hd', hcomp'⟩ := h'.completes (Nat.lt_succ_self m)
    rw [hprogm, hpcm] at hw'
    obtain rfl : w' = w := Option.some.inj (hw'.symm.trans hw)
    obtain rfl : i' = i := Except.ok.inj (hd'.symm.trans hd)
    refine ⟨?_, ?_⟩
    · rw [hcomp.pc_eq, hcomp'.pc_eq, State.nextPc_eq, State.nextPc_eq, hprogm, hpcm]
    · have heffect := hcomp.sp_eq
      have heffect' := hcomp'.sp_eq
      omega

/-- Two whole scans of the same program change SP by the same amount (R105, R109). -/
theorem scan_stack_effect {s s' t t' : State} {prog : List Word} {k k' : Nat} (hs : s.AtScanStart prog)
    (hs' : s'.AtScanStart prog) (h : command .scan s = .next (t, .done k))
    (h' : command .scan s' = .next (t', .done k')) : t.sp + s'.sp = t'.sp + s.sp := by
  obtain rfl : k' = k := by
    rw [scan_length hs h, scan_length hs' h']
  obtain ⟨-, hk, -, htr, -⟩ := scan_done hs h
  obtain ⟨-, hk', -, htr', -⟩ := scan_done hs' h'
  obtain ⟨hrun, rfl⟩ := run_after hk htr
  obtain ⟨hrun', rfl⟩ := run_after hk' htr'
  exact (hrun.lockstep hrun' (hs'.prog.trans hs.prog.symm) (hs'.pc.trans hs.pc.symm)).2

/-- Every whole scan of `prog` leaves more stack entries than it found (R109). -/
def ScanGains (prog : List Word) : Prop :=
  ∀ (s t : State) (k : Nat), s.AtScanStart prog → command .scan s = .next (t, .done k) → s.sp < t.sp

/-- Where one command is answered and the rest are, all are. -/
theorem commands_cons_next {c : Command} {rest : List Command} {s t u : State} {r : Response} {rs : List Response}
    (hc : command c s = .next (t, r)) (hrest : commands rest t = .next (u, rs)) :
    commands (c :: rest) s = .next (u, r :: rs) := by
  rw [commands, hc]
  dsimp only
  rw [hrest]

/-- Where every scan gains entries, some scan ends in a fault, by induction on the room the stack has left: SP never
passes SMAX (R13, R109). -/
theorem ScanGains.ends_halted {prog : List Word} (hgain : ScanGains prog) {s : State} (hs : s.AtScanStart prog) :
    ∃ (n : Nat) (u : State) (rs : List Response),
      commands (List.replicate n .scan) s = .next (u, rs) ∧ u.engine = .halted := by
  induction hroom : s.cfg.smax - s.sp using Nat.strong_induction_on generalizing s with
  | _ room ih =>
    obtain ⟨t, r, k, h, -, -, hk, ⟨rfl, -⟩ | ⟨-, hh⟩⟩ := everyScanEnds s hs.inv hs.ready
    · have hlt := hgain s t k hs h
      have ht := scan_done_atScanStart hs h
      obtain ⟨hcfg, -⟩ := stepTimes_sameLoad hk
      have hdepth := ht.inv.depth
      obtain ⟨n, u, rs, hrest, hh⟩ := ih (t.cfg.smax - t.sp) (by rw [hcfg] at hdepth ⊢; omega) ht rfl
      exact ⟨n + 1, u, _, commands_cons_next h hrest, hh⟩
    · exact ⟨1, t, _, commands_cons_next h rfl, hh⟩

/-- Settles O48: every whole scan of the program gains what the given one does. -/
theorem unbalancedScanEventuallyFaults : Obligations.UnbalancedScanEventuallyFaults := by
  intro s t k hs hr h0 h hlt
  have hstart : s.AtScanStart s.prog := ⟨hs, hr, h0, rfl⟩
  have hgain : ScanGains s.prog := fun s' t' k' hs' h' => by
    have heffect := scan_stack_effect hstart hs' h h'
    have hsp : s.sp < t.sp := hlt
    omega
  exact hgain.ends_halted hstart

end Sys2Proof.Machine
end
